-- ==== Sys2Proof/Word.lean ====
section
/-! DEFINITION. The word types of CORE: 16-bit data words and addresses, 4-bit register indices, the 12-bit JUMP
immediate (00_scope.md R6, R12; 30_encoding.md R63, R64). Arithmetic on them is `BitVec`'s, modulo 2^16 (R12). -/

namespace Sys2Proof

/-- A `Word16`: register contents, the pc, an instruction word (R12). -/
abbrev Word := BitVec 16

/-- A register index field: 4 bits, naming r0 to r15 (R63, R66). -/
abbrev RegIdx := BitVec 4

/-- The JUMP immediate: 12 bits (R64). -/
abbrev Imm12 := BitVec 12

end Sys2Proof
end

