-- ==== Sys2Proof/Config.lean ====
section
/-! DEFINITION. The implementation parameters the spec leaves open (00_scope.md R7 to R9) as one plain record. A
`Config` is a field of the machine's state that no step changes, so a statement about every state holds for every
configuration (log entry 3). The spec leaves no result open (93_implementation_defined.md), so there is no free value
here. -/

namespace Sys2Proof

/-- `UNRECOGNIZED_OPCODE_POLICY`: what Decode does with a valid word of unassigned opcode (R8, R94). -/
inductive UnrecognizedPolicy where
  | nop
  | fault
  deriving DecidableEq, Repr

/-- `STALL_FETCH_POLICY`: what FD latches in a stalled cycle with no taken branch (R9, R99). -/
inductive StallFetchPolicy where
  | refetch
  | bubble
  | hold
  deriving DecidableEq, Repr

/-- The named parameters of the core. `imemSize` is `IMEM_SIZE` (R7); `RF_INIT` (R10) is no field here: it is the
register file a run starts with. -/
structure Config where
  imemSize     : Nat
  unrecognized : UnrecognizedPolicy
  stallFetch   : StallFetchPolicy
  deriving DecidableEq, Repr

/-- The reference configuration (R18). -/
def Config.reference : Config where
  imemSize     := 65536
  unrecognized := .nop
  stallFetch   := .refetch

/-- The values R7 allows: `1 <= IMEM_SIZE <= 65536`. -/
def Config.legal (c : Config) : Bool :=
  decide (1 ≤ c.imemSize) && decide (c.imemSize ≤ 65536)

end Sys2Proof
end

