-- ==== Sys2Proof/Machine/State.lean ====
section
/-! DEFINITION. The whole state of CORE (10_state.md R20) as plain data, the reasons a step can stop, and the state after
reset. -/

namespace Sys2Proof.Machine

/-- One instruction-memory cell: a word address and the 16-bit word it holds. CORE's memory is addressed by words and
has no bytes (20_memory.md R41, R48), so a cell holds a word where another machine's holds a byte (log entry 7). -/
abbrev Cell := Nat × Word

/-- Instruction memory: cells of strictly rising address, none equal to what an unlisted address reads as. -/
abbrev Memory := List Cell

/-- The register file: 16 registers of 16 bits, r0 ordinary (R21, R22). -/
abbrev RegFile := Vector Word 16

/-- The ALU operations `de.op` can hold (R35, 41_alu_ops.md R120). No other value of the 4-bit field is ever latched,
and none can be written here (log entry 11). -/
inductive AluOp where
  | add
  | sub
  | xor
  | and
  | or
  deriving DecidableEq, Repr

/-- The Fetch→Decode register (R34). -/
structure FdReg where
  /-- 1: `word` must be decoded; 0: the squash NOP marker. -/
  valid : Bool
  /-- The fetched instruction word. -/
  word  : Word
  /-- The fetch-time pc of `word`. -/
  pc    : Word
  deriving DecidableEq, Repr

/-- The Decode→Execute register (R35). -/
structure DeReg where
  /-- The ALU operation. -/
  op       : AluOp
  /-- Resolved operand 1. -/
  a        : Word
  /-- Resolved operand 2. -/
  b        : Word
  /-- 1: the instruction writes register `rd`. -/
  wen      : Bool
  /-- The destination register, meaningful only when `wen` is 1. -/
  rd       : RegIdx
  /-- 1: the instruction is a JUMP. -/
  isBranch : Bool
  deriving DecidableEq, Repr

/-- The fault records of 60_exceptions.md R151. A cycle that faults records one in `State.fault` and answers NEXT of
the halted state (R102, R157; log entry 5), so `step` itself never answers `Outcome.fault`. -/
inductive Fault where
  /-- `DecodeError`, code 1. Raised by Decode on a valid FD word of unassigned opcode under the policy `fault`
  (R152). Safe: the core halts as the spec says. -/
  | decodeError (word pc : Word)
  /-- `OutOfRangeAddress` of a fetch, code 2. Raised by Fetch when `pc >= IMEM_SIZE` (R47, R153). Safe: the core halts
  as the spec says. -/
  | outOfRangeFetch (pc : Word)
  /-- `OutOfRangeAddress` of a load, code 2. Returned to the host by `loadProgram` for more than `IMEM_SIZE` words;
  never recorded in the core (R154). Safe. -/
  | outOfRangeLoad (length : Nat)
  /-- `RegisterIndexOutOfRange`, code 3. Returned to the host by `readRegister` for an index above 15; never recorded
  in the core (R155). Safe. -/
  | registerIndexOutOfRange (index : Nat)
  deriving DecidableEq, Repr

/-- Why a step is refused. -/
inductive Refusal where
  /-- An instruction with no meaning yet. No arm of `exec` raises it: all six instructions have their meaning. -/
  | notModelled (mnemonic : String)
  /-- The core has faulted and is not being reset: `step` changes nothing and returns the recorded fault again, and
  'the model treats such a step as refused' (40_pipeline.md R103). Raised by `step`. Safe. -/
  | coreFaulted (f : Fault)
  deriving DecidableEq, Repr

/-- What the host drives on the two control inputs in one clock cycle (R80). -/
structure CycleInput where
  rst   : Bool
  stall : Bool
  deriving DecidableEq, Repr

/-- Both inputs low. -/
def CycleInput.idle : CycleInput where
  rst   := false
  stall := false

/-- `FD_NOP`: the squash marker, carrying the pc of the squashed fetch (R34, R96). -/
def FdReg.nop (pc : Word) : FdReg where
  valid := false
  word  := 0x0000#16
  pc    := pc

/-- `BUBBLE` (R35). -/
def DeReg.bubble : DeReg where
  op       := .add
  a        := 0x0000#16
  b        := 0x0000#16
  wen      := false
  rd       := 0#4
  isBranch := false

/-- The state of CORE: the six items of R20, then the model's own two fields, which the spec calls parameters and
inputs of a run (R7 to R9, R82; log entries 2 and 3). -/
structure State where
  /-- The program counter: the address of the next word to fetch (R27). -/
  pc     : Word
  /-- The register file (R21). -/
  rf     : RegFile
  /-- The instruction memory (R41). -/
  imem   : Memory
  /-- The Fetch→Decode register (R34). -/
  fd     : FdReg
  /-- The Decode→Execute register (R35). -/
  de     : DeReg
  /-- The fault mark (R38). -/
  fault  : Option Fault
  /-- The implementation parameters; no step changes them. -/
  cfg    : Config
  /-- What the host drives in this cycle (the head) and the coming ones; past its end both inputs are low. -/
  inputs : List CycleInput
  deriving DecidableEq, Repr

/-- The machine right after reset, in the reference configuration (R18, R171). The register values are the model's
choice, zero (log entry 4); instruction memory lists nothing (log entry 7); no input is pending (log entry 2). -/
def State.reset : State where
  pc     := 0x0000#16
  rf     := Vector.replicate 16 0x0000#16
  imem   := []
  fd     := FdReg.nop 0x0000#16
  de     := DeReg.bubble
  fault  := none
  cfg    := Config.reference
  inputs := []

end Sys2Proof.Machine
end

