-- ==== Sys2Proof/Machine/Ops.lean ====
section
/-! DEFINITION. The shared operations: instruction memory, the register file, the Execute stage, Fetch, taking a fault,
the reset cycle, and `finishCycle`, the part of a clock cycle that is the same for every instruction (40_pipeline.md
R101). -/

namespace Sys2Proof.Machine

/-! ### Instruction memory (20_memory.md) -/

/-- What an unlisted address reads as: `IMEM_FILL` (R45). -/
def Memory.fill : Word := 0x0000#16

/-- The word at an address. -/
def Memory.read : Memory → Nat → Word
  | [], _ => Memory.fill
  | (k, v) :: m, a => if a = k then v else Memory.read m a

/-- Put a word at an address, keeping the canonical form: writing the fill word removes the cell. -/
def Memory.write : Memory → Nat → Word → Memory
  | [], a, w => if w = Memory.fill then [] else [(a, w)]
  | (k, v) :: m, a, w =>
    if a < k then (if w = Memory.fill then (k, v) :: m else (a, w) :: (k, v) :: m)
    else if a = k then (if w = Memory.fill then m else (a, w) :: m)
    else (k, v) :: Memory.write m a w

/-- The memory that holds `words` from address `a` on and the fill word everywhere else (R44). -/
def Memory.ofWords : Nat → List Word → Memory
  | _, [] => []
  | a, w :: ws => if w = Memory.fill then Memory.ofWords (a + 1) ws else (a, w) :: Memory.ofWords (a + 1) ws

/-- The canonical form: addresses strictly rising, no cell equal to the fill word. -/
def Memory.wf : Memory → Bool
  | [] => true
  | (k, v) :: m => decide (v ≠ Memory.fill) && m.all (fun c => decide (k < c.1)) && Memory.wf m

/-- Every listed address exists when memory has `n` words (R41). -/
def Memory.below (n : Nat) (m : Memory) : Bool := m.all (fun c => decide (c.1 < n))

/-- The fetch primitive `MemRead(addr, 1)`: the word at `addr`, or none where no word exists (R46, R47). -/
def memRead (s : State) (addr : Word) : Option Word :=
  if addr.toNat < s.cfg.imemSize then some (s.imem.read addr.toNat) else none

/-! ### The register file (10_state.md R21 to R24) -/

/-- A read port. -/
def RegFile.read (rf : RegFile) (i : RegIdx) : Word := rf[i.toNat]'i.isLt

/-- The write port. Every register is ordinary, r0 included (R22). -/
def RegFile.write (rf : RegFile) (i : RegIdx) (v : Word) : RegFile := rf.set i.toNat v i.isLt

/-! ### Inputs -/

/-- What the host drives in this cycle (R80, R82). -/
def State.input (s : State) : CycleInput := s.inputs.headD CycleInput.idle

/-! ### Execute / Write-back (R84 to R86) -/

/-- The opcode value an ALU operation stands for (R35, R62). -/
def AluOp.code : AluOp → BitVec 4
  | .add => 0x1#4
  | .sub => 0x2#4
  | .xor => 0x3#4
  | .and => 0x4#4
  | .or  => 0x5#4

/-- The ALU (41_alu_ops.md R120). `sub` is operand 1 minus operand 2. -/
def alu : AluOp → Word → Word → Word
  | .add, a, b => a + b
  | .sub, a, b => a - b
  | .xor, a, b => a ^^^ b
  | .and, a, b => a &&& b
  | .or, a, b  => a ||| b

/-- The signals Execute drives to Decode, Fetch and the write port in the same cycle (R84, R85). -/
structure ExSignals where
  result       : Word
  wen          : Bool
  rd           : RegIdx
  branchTaken  : Bool
  branchTarget : Word
  deriving DecidableEq, Repr

/-- The Execute stage, a function of DE alone (R84, R85). -/
def execute (de : DeReg) : ExSignals where
  result       := alu de.op de.a de.b
  wen          := de.wen
  rd           := de.rd
  branchTaken  := de.isBranch
  branchTarget := alu de.op de.a de.b

/-- The register file at the end of the cycle (R86). -/
def writeBack (rf : RegFile) (ex : ExSignals) : RegFile :=
  if ex.wen then rf.write ex.rd ex.result else rf

/-! ### Fetch (R95 to R99) -/

/-- The next pc: hold, then jump, then increment modulo 2^16 (R31, R98). -/
def nextPc (s : State) (ex : ExSignals) : Word :=
  if s.input.stall then s.pc
  else if ex.branchTaken then ex.branchTarget
  else s.pc + 1#16

/-- What FD latches when the word `w` was fetched at the pc (R96, R97, R99). -/
def nextFd (s : State) (ex : ExSignals) (w : Word) : FdReg :=
  if ex.branchTaken then FdReg.nop s.pc
  else if s.input.stall then
    match s.cfg.stallFetch with
    | .refetch => { valid := true, word := w, pc := s.pc }
    | .bubble  => FdReg.nop s.pc
    | .hold    => s.fd
  else { valid := true, word := w, pc := s.pc }

/-! ### Faults and reset -/

/-- Taking a fault: a halt, not a trap. Nothing latches; only the mark is set (R102, R157; log entry 5). -/
def takeFault (f : Fault) (s : State) : State :=
  { s with fault := some f, inputs := s.inputs.tail }

/-- The numeric code of a fault record, as `fault_code` shows it (R151). -/
def Fault.code : Fault → BitVec 2
  | .decodeError _ _           => 1#2
  | .outOfRangeFetch _         => 2#2
  | .outOfRangeLoad _          => 2#2
  | .registerIndexOutOfRange _ => 3#2

/-- A clock edge with `rst = 1` (70_reset_and_hazards.md R170): the register file, instruction memory and parameters
are kept, and Execute's write of the cycle is dropped. -/
def resetCycle (s : State) : State :=
  { s with pc := 0x0000#16, fd := FdReg.nop 0x0000#16, de := DeReg.bubble, fault := none, inputs := s.inputs.tail }

/-! ### The cycle (R101) -/

/-- All state elements latch together (R81): `de'` is what Decode made, `w` the word fetched at the pc. -/
def latch (de' : DeReg) (w : Word) (s : State) : State :=
  { s with
    pc     := nextPc s (execute s.de)
    rf     := writeBack s.rf (execute s.de)
    fd     := nextFd s (execute s.de) w
    de     := de'
    inputs := s.inputs.tail }

/-- The cycle once Decode has made `de'`: Fetch reads at the pc and faults where no word exists (R95), else all
latches. -/
def finishCycle (de' : DeReg) (s : State) : Host.Outcome State Fault Refusal :=
  match memRead s s.pc with
  | none   => .next (takeFault (.outOfRangeFetch s.pc) s)
  | some w => .next (latch de' w s)

/-- The cycle in which FD holds the squash marker (R87). -/
def bubbleCycle (s : State) : Host.Outcome State Fault Refusal :=
  finishCycle DeReg.bubble s

/-- The cycle in which FD holds a valid word of unassigned opcode (R94). `DecodeError` comes before any fault of Fetch
(R156). -/
def unrecognizedCycle (s : State) : Host.Outcome State Fault Refusal :=
  match s.cfg.unrecognized with
  | .nop   => finishCycle DeReg.bubble s
  | .fault => .next (takeFault (.decodeError s.fd.word s.fd.pc) s)

/-- The state in which Fetch has just taken the word `w` from the pc: memory holds it there, FD holds it with its
fetch-time pc, and the pc has moved on (R97, R98; log entry 8). Where no word exists at the pc, memory is left. -/
def placeFetched (w : Word) (s : State) : State :=
  { s with
    imem := if s.pc.toNat < s.cfg.imemSize then s.imem.write s.pc.toNat w else s.imem
    fd   := { valid := true, word := w, pc := s.pc }
    pc   := s.pc + 1#16 }

end Sys2Proof.Machine
end

