-- ==== Sys2Proof/Machine/Operands.lean ====
section
/-! DEFINITION. The operand forms Decode resolves (40_pipeline.md R88 to R93): a forwarded or committed register, the
fetch-time pc, the sign-extended immediate. CORE has no status flag (10_state.md R32), so there is no flag
computation and no Flags file. -/

namespace Sys2Proof.Machine

/-- `sext_16` of a 12-bit value: bits 15 to 12 copy bit 11 (00_scope.md R13). -/
def sext16 (v : Imm12) : Word := v.signExtend 16

/-- A register operand: Execute's result if Execute writes that register in this cycle, else the committed value
(R89, R90). -/
def forward (ex : ExSignals) (rf : RegFile) (r : RegIdx) : Word :=
  if ex.wen && ex.rd == r then ex.result else rf.read r

/-- The register operand `r` of the instruction in Decode. -/
def operand (s : State) (r : RegIdx) : Word := forward (execute s.de) s.rf r

/-- What Decode latches for a register instruction (R92). -/
def regOpEntry (op : AluOp) (rd rs1 rs2 : RegIdx) (s : State) : DeReg where
  op       := op
  a        := operand s rs1
  b        := operand s rs2
  wen      := true
  rd       := rd
  isBranch := false

/-- What Decode latches for a JUMP (R93): the target is computed by the same adder as ADD. -/
def jumpEntry (imm12 : Imm12) (s : State) : DeReg where
  op       := .add
  a        := s.fd.pc
  b        := sext16 imm12
  wen      := false
  rd       := 0#4
  isBranch := true

end Sys2Proof.Machine
end

