-- ==== Sys2Proof/Machine/AluOps.lean ====
section
/-! DEFINITION. The meanings of the register instructions (41_alu_ops.md). The meaning of an instruction is the clock
cycle in which it is in Decode (log entry 1): its operands are resolved and its DE entry latched, while Execute
finishes the instruction before it and Fetch reads the next word. Its own result is computed and written in the
cycle after, by Execute, from that entry. -/

namespace Sys2Proof.Machine

/-- ADD rd rs1 rs2 (R121). -/
def execAdd (rd rs1 rs2 : RegIdx) (s : State) : Host.Outcome State Fault Refusal :=
  finishCycle (regOpEntry .add rd rs1 rs2 s) s

/-- SUB rd rs1 rs2 (R122). -/
def execSub (rd rs1 rs2 : RegIdx) (s : State) : Host.Outcome State Fault Refusal :=
  finishCycle (regOpEntry .sub rd rs1 rs2 s) s

/-- XOR rd rs1 rs2 (R123). -/
def execXor (rd rs1 rs2 : RegIdx) (s : State) : Host.Outcome State Fault Refusal :=
  finishCycle (regOpEntry .xor rd rs1 rs2 s) s

/-- AND rd rs1 rs2 (R124). -/
def execAnd (rd rs1 rs2 : RegIdx) (s : State) : Host.Outcome State Fault Refusal :=
  finishCycle (regOpEntry .and rd rs1 rs2 s) s

/-- OR rd rs1 rs2 (R125). -/
def execOr (rd rs1 rs2 : RegIdx) (s : State) : Host.Outcome State Fault Refusal :=
  finishCycle (regOpEntry .or rd rs1 rs2 s) s

end Sys2Proof.Machine
end

