-- ==== Sys2Proof/Machine/Control.lean ====
section
/-! DEFINITION. The meaning of JUMP (42_jump.md), the only control transfer (R146). -/

namespace Sys2Proof.Machine

/-- JUMP k (R140): the cycle in which it is in Decode. Execute, one cycle later, takes the branch: it squashes the word
then being fetched (R143) and, unless that cycle is stalled (R145), sets the pc to the target. -/
def execJump (imm12 : Imm12) (s : State) : Host.Outcome State Fault Refusal :=
  finishCycle (jumpEntry imm12 s) s

end Sys2Proof.Machine
end

