-- ==== Sys2Proof/Syntax.lean ====
section
/-! DEFINITION. The six instructions of CORE, one constructor per row of the opcode table (30_encoding.md R62). Register
fields are 4 bits and the immediate is 12 bits, so no term names a register or an offset the hardware lacks (R66,
R69). -/

namespace Sys2Proof

/-- The decoded instructions (R62, R67): five register instructions in the R format, JUMP in the J format. -/
inductive Instr where
  | add  (rd rs1 rs2 : RegIdx)
  | sub  (rd rs1 rs2 : RegIdx)
  | xor  (rd rs1 rs2 : RegIdx)
  | and  (rd rs1 rs2 : RegIdx)
  | or   (rd rs1 rs2 : RegIdx)
  | jump (imm12 : Imm12)
  deriving DecidableEq, Repr

end Sys2Proof
end

