-- ==== Sys2Proof/Decode.lean ====
section
/-! DEFINITION. Decoding one 16-bit word (30_encoding.md R60 to R68) and, after it, the encoder (R71). Decoding is total:
a word of unassigned opcode is `unrecognized`, by name. CORE has no bytes: an instruction is one word (R48, R60). -/

namespace Sys2Proof

/-- The opcode field `w[15:12]` (R62). -/
def opcodeField (w : Word) : BitVec 4 := w.extractLsb' 12 4

/-- The field `rd = w[11:8]` (R63). -/
def rdField (w : Word) : RegIdx := w.extractLsb' 8 4

/-- The field `rs1 = w[7:4]` (R63). -/
def rs1Field (w : Word) : RegIdx := w.extractLsb' 4 4

/-- The field `rs2 = w[3:0]` (R63). -/
def rs2Field (w : Word) : RegIdx := w.extractLsb' 0 4

/-- The field `imm12 = w[11:0]` (R64). -/
def imm12Field (w : Word) : Imm12 := w.extractLsb' 0 12

/-- What `decode` answers (R67): one of the six instructions, or `unrecognized` for an unassigned opcode (R68). -/
inductive Decoded where
  | instr (i : Instr)
  | unrecognized
  deriving DecidableEq, Repr

/-- The decode function of R67, by the opcode values of R62. -/
def decode (w : Word) : Decoded :=
  if opcodeField w = 0x1#4 then .instr (.add (rdField w) (rs1Field w) (rs2Field w))
  else if opcodeField w = 0x2#4 then .instr (.sub (rdField w) (rs1Field w) (rs2Field w))
  else if opcodeField w = 0x3#4 then .instr (.xor (rdField w) (rs1Field w) (rs2Field w))
  else if opcodeField w = 0x4#4 then .instr (.and (rdField w) (rs1Field w) (rs2Field w))
  else if opcodeField w = 0x5#4 then .instr (.or (rdField w) (rs1Field w) (rs2Field w))
  else if opcodeField w = 0x6#4 then .instr (.jump (imm12Field w))
  else .unrecognized

/-- The instruction a decoding gives, if it gives one. -/
def Decoded.instr? : Decoded → Option Instr
  | .instr i      => some i
  | .unrecognized => none

/-- The opcode value of each instruction (R62). -/
def opcodeOf : Instr → BitVec 4
  | .add _ _ _ => 0x1#4
  | .sub _ _ _ => 0x2#4
  | .xor _ _ _ => 0x3#4
  | .and _ _ _ => 0x4#4
  | .or _ _ _  => 0x5#4
  | .jump _    => 0x6#4

/-- The R format: opcode, rd, rs1, rs2, four bits each (R61). -/
def encodeR (opcode : BitVec 4) (rd rs1 rs2 : RegIdx) : Word := opcode ++ rd ++ rs1 ++ rs2

/-- The J format: opcode, then the 12-bit immediate (R61). -/
def encodeJ (opcode : BitVec 4) (imm12 : Imm12) : Word := opcode ++ imm12

/-- The encoder of R71. -/
def encode : Instr → Word
  | .add rd rs1 rs2 => encodeR 0x1#4 rd rs1 rs2
  | .sub rd rs1 rs2 => encodeR 0x2#4 rd rs1 rs2
  | .xor rd rs1 rs2 => encodeR 0x3#4 rd rs1 rs2
  | .and rd rs1 rs2 => encodeR 0x4#4 rd rs1 rs2
  | .or rd rs1 rs2  => encodeR 0x5#4 rd rs1 rs2
  | .jump imm12     => encodeJ 0x6#4 imm12

/-- The one instruction word in a number whose low `nbits` bits the opcode table counts from bit 0 of the first word;
bits above `nbits` are zero, and CORE's only instruction word is the first (R60). -/
def tableWord (nbits w : Nat) : Word := BitVec.ofNat 16 (w % 2 ^ nbits)

/-- What this decoder reads from such a number. -/
def decodeTableWord (nbits w : Nat) : Option Instr := (decode (tableWord nbits w)).instr?

end Sys2Proof
end

