-- ==== Sys2Proof/Machine/Issue.lean ====
section
/-! DEFINITION. What a clock edge does, read from the inputs, the fault mark and FD (40_pipeline.md R87, R88, R101, R103;
70_reset_and_hazards.md R170). -/

namespace Sys2Proof.Machine

/-- The kinds of clock cycle. -/
inductive Issue where
  /-- `rst` is high. -/
  | reset
  /-- The core has faulted. -/
  | halted (f : Fault)
  /-- FD holds the squash marker. -/
  | bubble
  /-- FD holds an instruction. -/
  | instr (i : Instr)
  /-- FD holds a valid word of unassigned opcode. -/
  | unrecognized
  deriving DecidableEq, Repr

/-- The kind of cycle for a decoded FD word (R88, R94). -/
def Issue.ofDecoded : Decoded → Issue
  | .instr i      => .instr i
  | .unrecognized => .unrecognized

/-- Reset comes before everything (R170: 'instead of a step'), then the fault mark (R103), then FD (R87, R88). -/
def issue (s : State) : Issue :=
  if s.input.rst then .reset
  else
    match s.fault with
    | some f => .halted f
    | none   => if s.fd.valid then Issue.ofDecoded (decode s.fd.word) else .bubble

end Sys2Proof.Machine
end

