-- ==== Sys2Proof/Machine/Step.lean ====
section
/-! DEFINITION. One clock cycle of CORE (40_pipeline.md R101, 70_reset_and_hazards.md R170), and the placing of one
instruction where the next cycle issues it from. -/

namespace Sys2Proof.Machine

/-- One clock edge. -/
def step (s : State) : Host.Outcome State Fault Refusal :=
  match issue s with
  | .reset        => .next (resetCycle s)
  | .halted f     => .refused (.coreFaulted f)
  | .bubble       => bubbleCycle s
  | .instr i      => exec i s
  | .unrecognized => unrecognizedCycle s

/-- The state in which the table's word stands in FD, as a fetch at the pc would have left it (log entry 8). -/
def State.withFetchWord (s : State) (nbits w : Nat) : State := placeFetched (tableWord nbits w) s

end Sys2Proof.Machine
end

