-- ==== Sys2Proof/Machine/Driver.lean ====
section
/-! DEFINITION. The driver interface and the ports (40_pipeline.md R80, R82, R107, R109): what the host may do to the core
and see of it. -/

namespace Sys2Proof.Machine

/-- What a driver operation answers. -/
inductive Answer (α : Type) where
  /-- The operation's result. -/
  | ok (a : α)
  /-- An error returned to the host; the core is unchanged. -/
  | error (f : Fault)
  /-- A host action the spec puts outside the model (R56, R109). -/
  | outsideModel
  deriving DecidableEq, Repr

/-- What `step(stall)` answers (R82, R103). -/
inductive StepAnswer where
  /-- The cycle raised no fault. -/
  | ok
  /-- The fault the cycle raised, now recorded (R102). -/
  | fault (f : Fault)
  /-- The core had faulted: nothing changed, and the refusal carries the recorded fault (R103). -/
  | refused (r : Refusal)
  deriving DecidableEq, Repr

/-- The host drives these inputs in the coming cycle. -/
def drive (x : CycleInput) (s : State) : State := { s with inputs := x :: s.inputs }

/-- `step(stall)`: one cycle with the given stall bit and reset low (R82, R101 to R103). -/
def driverStep (stall : Bool) (s : State) : State × StepAnswer :=
  match step (drive { rst := false, stall := stall } s) with
  | .next t =>
    match t.fault with
    | none   => (t, .ok)
    | some f => (t, .fault f)
  | .fault f   => (s, .fault f)
  | .refused r => (s, .refused r)

/-- One clock edge with reset high (R170). `stall` is ignored. -/
def driverReset (s : State) : State := resetCycle (drive { rst := true, stall := false } s)

/-- `load_program(words)` (20_memory.md R44, 60_exceptions.md R154), which the host may call only while it holds reset
(R43, R109). -/
def loadProgram (words : List Word) (s : State) : Answer State :=
  if s.input.rst then
    if words.length ≤ s.cfg.imemSize then .ok { s with imem := Memory.ofWords 0 words }
    else .error (.outOfRangeLoad words.length)
  else .outsideModel

/-- `read_register(i)`: the committed value (R107, R155). -/
def readRegister (i : Nat) (s : State) : Answer Word :=
  if i < 16 then .ok (s.rf.read (BitVec.ofNat 4 i)) else .error (.registerIndexOutOfRange i)

/-- `read_pc()` (R107). -/
def readPc (s : State) : Word := s.pc

/-- The boot order of R174 from the launch parameters: reset is held with `RF_INIT` in the registers, the program is
loaded, and the reset edge passes; `step` calls follow. -/
def boot (cfg : Config) (rfInit : RegFile) (words : List Word) : Answer State :=
  match loadProgram words (drive { rst := true, stall := false } { State.reset with cfg := cfg, rf := rfInit }) with
  | .ok s         => .ok (resetCycle s)
  | .error f      => .error f
  | .outsideModel => .outsideModel

/-! ### Output ports (R80) -/

/-- `imem_addr`. -/
def imemAddr (s : State) : Word := s.pc

/-- `imem_rdata`, in the same cycle; none where no word exists. -/
def imemRdata (s : State) : Option Word := memRead s s.pc

/-- `dbg_data`: the committed value of register `dbg_idx`. -/
def dbgData (s : State) (dbgIdx : RegIdx) : Word := s.rf.read dbgIdx

/-- `pc_out`. -/
def pcOut (s : State) : Word := s.pc

/-- `fault_code`: 0 while nothing is marked. -/
def faultCode (s : State) : BitVec 2 :=
  match s.fault with
  | none   => 0#2
  | some f => f.code

end Sys2Proof.Machine
end

