-- ==== Sys2Proof/WellFormed.lean ====
section
/-! DEFINITION. Which instructions the hardware has. Every term of `Instr` is one: an assigned format has no reserved or
ignored bit and every field value is legal (30_encoding.md R69). The checks that can fail stand one level up, on the
WRITTEN form of R72, whose register numbers and offsets are plain numbers. -/

namespace Sys2Proof

/-- Every value of every field of the six instructions is legal (R69). -/
def Instr.wellFormed : Instr → Bool
  | .add _ _ _ => true
  | .sub _ _ _ => true
  | .xor _ _ _ => true
  | .and _ _ _ => true
  | .or _ _ _  => true
  | .jump _    => true

/-- An instruction as R72 writes it: register numbers and a signed offset, not yet held in fields. -/
inductive Written where
  | add  (rd rs1 rs2 : Nat)
  | sub  (rd rs1 rs2 : Nat)
  | xor  (rd rs1 rs2 : Nat)
  | and  (rd rs1 rs2 : Nat)
  | or   (rd rs1 rs2 : Nat)
  | jump (k : Int)
  deriving DecidableEq, Repr

/-- Registers are written r0 to r15 (R72). -/
def regNumberOk (n : Nat) : Bool := decide (n < 16)

/-- JUMP's offset lies in [-2048, 2047] (R65, R72). -/
def offsetOk (k : Int) : Bool := decide (-2048 ≤ k) && decide (k ≤ 2047)

/-- The written forms that stand for an instruction (R72). -/
def Written.wellFormed : Written → Bool
  | .add rd rs1 rs2 => regNumberOk rd && regNumberOk rs1 && regNumberOk rs2
  | .sub rd rs1 rs2 => regNumberOk rd && regNumberOk rs1 && regNumberOk rs2
  | .xor rd rs1 rs2 => regNumberOk rd && regNumberOk rs1 && regNumberOk rs2
  | .and rd rs1 rs2 => regNumberOk rd && regNumberOk rs1 && regNumberOk rs2
  | .or rd rs1 rs2  => regNumberOk rd && regNumberOk rs1 && regNumberOk rs2
  | .jump k         => offsetOk k

/-- The fields of a written form, each number reduced to its field's width: a register number modulo 16, an offset
modulo 4096 (R71). -/
def Written.fields : Written → Instr
  | .add rd rs1 rs2 => .add (.ofNat 4 rd) (.ofNat 4 rs1) (.ofNat 4 rs2)
  | .sub rd rs1 rs2 => .sub (.ofNat 4 rd) (.ofNat 4 rs1) (.ofNat 4 rs2)
  | .xor rd rs1 rs2 => .xor (.ofNat 4 rd) (.ofNat 4 rs1) (.ofNat 4 rs2)
  | .and rd rs1 rs2 => .and (.ofNat 4 rd) (.ofNat 4 rs1) (.ofNat 4 rs2)
  | .or rd rs1 rs2  => .or (.ofNat 4 rd) (.ofNat 4 rs1) (.ofNat 4 rs2)
  | .jump k         => .jump (.ofInt 12 k)

/-- The instruction a written form stands for; an ill-formed one stands for none (R71, R72). -/
def Written.toInstr (a : Written) : Option Instr :=
  if a.wellFormed then some a.fields else none

end Sys2Proof
end

