-- ==== Sys2Proof/Safety.lean ====
section
/-! DEFINITION. The terms statements use: the registers as older instructions leave them, cycles that raise no fault, the
invariant of the machine, and the sequential machine that a program can think in. -/

namespace Sys2Proof.Machine

/-- The register file as the instruction in Decode must see it: the committed values with the write of the instruction
in Execute performed (40_pipeline.md R86, R91). -/
def State.archRf (s : State) : RegFile := writeBack s.rf (execute s.de)

/-- The register instruction of an ALU operation (30_encoding.md R62): ADD, SUB, XOR, AND or OR. -/
def regOp : AluOp → RegIdx → RegIdx → RegIdx → Instr
  | .add, rd, rs1, rs2 => .add rd rs1 rs2
  | .sub, rd, rs1, rs2 => .sub rd rs1 rs2
  | .xor, rd, rs1, rs2 => .xor rd rs1 rs2
  | .and, rd, rs1, rs2 => .and rd rs1 rs2
  | .or, rd, rs1, rs2  => .or rd rs1 rs2

/-- Decode raises `DecodeError` in this cycle (R94). -/
def decodeFails (s : State) : Bool :=
  s.fd.valid && decode s.fd.word == .unrecognized && s.cfg.unrecognized == .fault

/-- Fetch raises `OutOfRangeAddress` in this cycle (R95). -/
def fetchFails (s : State) : Bool := decide (s.cfg.imemSize ≤ s.pc.toNat)

/-- A cycle of R101 that latches: reset low, no fault recorded, none raised. -/
def cycleRuns (s : State) : Bool :=
  !s.input.rst && s.fault.isNone && !decodeFails s && !fetchFails s

/-- The three forms of DE that some rule produces (R35, R36, R92, R93): BUBBLE, a register instruction, a JUMP. -/
def DeReg.legal (d : DeReg) : Bool :=
  d == DeReg.bubble || (d.wen && !d.isBranch) || (d.isBranch && !d.wen && d.op == .add && d.rd == 0#4)

/-- FD holds what instruction memory holds at its fetch-time pc, or the squash marker (R34, R96, R97). -/
def State.fdLegal (s : State) : Bool :=
  if s.fd.valid then decide (s.fd.pc.toNat < s.cfg.imemSize) && s.imem.read s.fd.pc.toNat == s.fd.word
  else s.fd.word == 0x0000#16

/-- A recorded fault is one of the two a cycle can raise, and the frozen state still shows why it was raised (R102,
R151 to R153). -/
def State.faultExplained (s : State) : Bool :=
  match s.fault with
  | none => true
  | some (.decodeError w p) => decodeFails s && s.fd.word == w && s.fd.pc == p
  | some (.outOfRangeFetch p) => fetchFails s && s.pc == p
  | some (.outOfRangeLoad _) => false
  | some (.registerIndexOutOfRange _) => false

/-- The invariant: legal parameters, canonical memory within its size, FD and DE in the forms the rules produce, and
every recorded fault explained. -/
def State.inv (s : State) : Bool :=
  s.cfg.legal && s.imem.wf && s.imem.below s.cfg.imemSize && s.fdLegal && s.de.legal && s.faultExplained

/-! ### The sequential machine

What a program computes when nothing stalls: one instruction after another, each seeing the results of all before it,
and JUMP with its delay slot (R91, R142 to R144). -/

/-- The effect of one decoded word on the registers (41_alu_ops.md R121 to R125; JUMP and an unassigned word have
none, R140, R94). -/
def effect : Decoded → RegFile → RegFile
  | .instr (.add rd rs1 rs2), rf => rf.write rd (rf.read rs1 + rf.read rs2)
  | .instr (.sub rd rs1 rs2), rf => rf.write rd (rf.read rs1 - rf.read rs2)
  | .instr (.xor rd rs1 rs2), rf => rf.write rd (rf.read rs1 ^^^ rf.read rs2)
  | .instr (.and rd rs1 rs2), rf => rf.write rd (rf.read rs1 &&& rf.read rs2)
  | .instr (.or rd rs1 rs2), rf  => rf.write rd (rf.read rs1 ||| rf.read rs2)
  | .instr (.jump _), rf         => rf
  | .unrecognized, rf            => rf

/-- The sequential machine's state: the address of the next instruction and the registers. -/
structure SeqState where
  pc : Word
  rf : RegFile
  deriving DecidableEq, Repr

/-- One sequential step, and the number of clock cycles the pipeline takes for it. A JUMP at `p` runs its delay slot
`p + 1` and goes to `p + k` (R141, R142), in three cycles (R183); a second JUMP in the slot alone decides where control
goes, from its own address (R144), in four. -/
def seqStep (m : Memory) (q : SeqState) : SeqState × Nat :=
  match decode (m.read q.pc.toNat) with
  | .instr (.jump k) =>
    match decode (m.read (q.pc + 1#16).toNat) with
    | .instr (.jump k2) => ({ pc := q.pc + 1#16 + sext16 k2, rf := q.rf }, 4)
    | slot              => ({ pc := q.pc + sext16 k, rf := effect slot q.rf }, 3)
  | d => ({ pc := q.pc + 1#16, rf := effect d q.rf }, 1)

/-- `n` sequential steps, and the clock cycles they take together. -/
def seqRun (m : Memory) : Nat → SeqState → SeqState × Nat
  | 0, q => (q, 0)
  | n + 1, q => ((seqRun m n (seqStep m q).1).1, (seqStep m q).2 + (seqRun m n (seqStep m q).1).2)

/-- The pipeline stands at an instruction boundary of the sequential machine: FD holds the word at `q.pc`, Execute holds
no JUMP, the older results make up `q.rf`, every address exists, unassigned words are NOPs, and the host drives
neither reset nor stall. -/
def aligned (s : State) (q : SeqState) : Prop :=
  s.fault = none ∧ s.cfg.imemSize = 65536 ∧ s.cfg.unrecognized = .nop
    ∧ s.fd = { valid := true, word := s.imem.read q.pc.toNat, pc := q.pc }
    ∧ s.pc = q.pc + 1#16 ∧ s.de.isBranch = false ∧ s.archRf = q.rf
    ∧ ∀ x ∈ s.inputs, x = CycleInput.idle

end Sys2Proof.Machine
end

