-- ==== Sys2Proof/Certificates/Slice0/Obligations.lean ====
section
/-! DEFINITION. The statements for the provers. `exec i s` is the clock cycle in which `i` is in Decode (log entry 1); the
instruction's own result is written by the cycle after it, which `step` of the answered state gives. -/

open Sys2Proof Sys2Proof.Machine

/-! ### Encoding -/

/-- R71: the encoder's formula, and decode and encode are inverse on the six instructions. -/
def Obligations.DecodeInvertsEncode : Prop :=
  (∀ i : Instr, decode (encode i) = .instr i)
    ∧ (∀ (w : Word) (i : Instr), decode w = .instr i → encode i = w)
    ∧ (∀ (op : AluOp) (rd rs1 rs2 : RegIdx),
        (encode (regOp op rd rs1 rs2)).toNat
          = 4096 * op.code.toNat + 256 * rd.toNat + 16 * rs1.toNat + rs2.toNat)
    ∧ (∀ imm12 : Imm12, (encode (.jump imm12)).toNat = 4096 * 6 + imm12.toNat)
    ∧ (∀ k : Int, -2048 ≤ k → k ≤ 2047 →
        ∃ imm12, Written.toInstr (.jump k) = some (.jump imm12) ∧ (imm12.toNat : Int) = k % 4096)

/-- R67 with the table of R62, by plain arithmetic on the word's value. -/
def Obligations.DecodeFollowsOpcodeTable : Prop :=
  ∀ w : Word,
    (w.toNat / 4096 = 1 → decode w = .instr (.add (.ofNat 4 (w.toNat / 256 % 16)) (.ofNat 4 (w.toNat / 16 % 16))
      (.ofNat 4 (w.toNat % 16))))
    ∧ (w.toNat / 4096 = 2 → decode w = .instr (.sub (.ofNat 4 (w.toNat / 256 % 16)) (.ofNat 4 (w.toNat / 16 % 16))
      (.ofNat 4 (w.toNat % 16))))
    ∧ (w.toNat / 4096 = 3 → decode w = .instr (.xor (.ofNat 4 (w.toNat / 256 % 16)) (.ofNat 4 (w.toNat / 16 % 16))
      (.ofNat 4 (w.toNat % 16))))
    ∧ (w.toNat / 4096 = 4 → decode w = .instr (.and (.ofNat 4 (w.toNat / 256 % 16)) (.ofNat 4 (w.toNat / 16 % 16))
      (.ofNat 4 (w.toNat % 16))))
    ∧ (w.toNat / 4096 = 5 → decode w = .instr (.or (.ofNat 4 (w.toNat / 256 % 16)) (.ofNat 4 (w.toNat / 16 % 16))
      (.ofNat 4 (w.toNat % 16))))
    ∧ (w.toNat / 4096 = 6 → decode w = .instr (.jump (.ofNat 12 (w.toNat % 4096))))
    ∧ (w.toNat / 4096 = 0 ∨ 7 ≤ w.toNat / 4096 → decode w = .unrecognized)

/-- Words of 95_test_vectors.md V1, one for each instruction and for the edges of the opcode table. -/
def Obligations.SpecWordsDecodeAsListed : Prop :=
  decode 0x1210#16 = .instr (.add 2#4 1#4 0#4) ∧ decode 0x2312#16 = .instr (.sub 3#4 1#4 2#4)
    ∧ decode 0x3412#16 = .instr (.xor 4#4 1#4 2#4) ∧ decode 0x4512#16 = .instr (.and 5#4 1#4 2#4)
    ∧ decode 0x5612#16 = .instr (.or 6#4 1#4 2#4) ∧ decode 0x6800#16 = .instr (.jump 0x800#12)
    ∧ decode 0x0000#16 = .unrecognized ∧ decode 0x7000#16 = .unrecognized ∧ decode 0xF123#16 = .unrecognized

/-- R72: every instruction has a written form, and a register number above 15 or an offset outside [-2048, 2047] names
no instruction. -/
def Obligations.WrittenFormsNameInstructions : Prop :=
  (∀ i : Instr, ∃ a : Written, a.toInstr = some i)
    ∧ (∀ rd rs1 rs2 : Nat, 15 < rd ∨ 15 < rs1 ∨ 15 < rs2 →
        Written.toInstr (.add rd rs1 rs2) = none ∧ Written.toInstr (.sub rd rs1 rs2) = none
          ∧ Written.toInstr (.xor rd rs1 rs2) = none ∧ Written.toInstr (.and rd rs1 rs2) = none
          ∧ Written.toInstr (.or rd rs1 rs2) = none)
    ∧ (∀ k : Int, k < -2048 ∨ 2047 < k → Written.toInstr (.jump k) = none)

/-! ### A step runs what FD holds -/

/-- R88, R101: with reset low and no fault recorded, a valid FD word that decodes to `i` makes the step `exec i`, with
nothing around it. -/
def Obligations.StepRunsDecodedInstruction : Prop :=
  ∀ (s : State) (i : Instr), s.input.rst = false → s.fault = none → s.fd.valid = true →
    decode s.fd.word = .instr i → step s = exec i s

/-- The model's own placing of a word (log entry 8) is what an unstalled fetch of it leaves: from a state with an empty
pipeline and the word in memory at the pc, one step gives it, and the next step runs the instruction. -/
def Obligations.PlacedWordIsWhatFetchLeaves : Prop :=
  ∀ (s : State) (i : Instr), s.fault = none → s.pc.toNat < s.cfg.imemSize → s.imem.wf = true → s.fd.valid = false →
    s.de = DeReg.bubble → s.inputs = [] →
    step { s with imem := s.imem.write s.pc.toNat (encode i) } = .next (s.withFetchWord 16 (encode i).toNat)
      ∧ step (s.withFetchWord 16 (encode i).toNat) = exec i (s.withFetchWord 16 (encode i).toNat)

/-! ### What each instruction computes -/

/-- R121. -/
def Obligations.AddSumsItsOperands : Prop :=
  encode (.add 2#4 1#4 0#4) = 0x1210#16 ∧
  ∀ (s : State) (rd rs1 rs2 : RegIdx), s.pc.toNat < s.cfg.imemSize →
    (encode (.add rd rs1 rs2)).toNat = 0x1000 + 256 * rd.toNat + 16 * rs1.toNat + rs2.toNat
    ∧ ∃ t, exec (.add rd rs1 rs2) s = .next t
      ∧ t.de = { op := .add, a := operand s rs1, b := operand s rs2, wen := true, rd := rd, isBranch := false }
      ∧ t.fault = s.fault ∧ (execute t.de).branchTaken = false
      ∧ (cycleRuns t = true → ∃ u, step t = .next u
          ∧ (u.rf.read rd).toNat = ((operand s rs1).toNat + (operand s rs2).toNat) % 65536)

/-- R122. -/
def Obligations.SubTakesSecondOperandFromFirst : Prop :=
  encode (.sub 3#4 1#4 2#4) = 0x2312#16 ∧
  ∀ (s : State) (rd rs1 rs2 : RegIdx), s.pc.toNat < s.cfg.imemSize →
    (encode (.sub rd rs1 rs2)).toNat = 0x2000 + 256 * rd.toNat + 16 * rs1.toNat + rs2.toNat
    ∧ ∃ t, exec (.sub rd rs1 rs2) s = .next t
      ∧ t.de = { op := .sub, a := operand s rs1, b := operand s rs2, wen := true, rd := rd, isBranch := false }
      ∧ t.fault = s.fault ∧ (execute t.de).branchTaken = false
      ∧ (cycleRuns t = true → ∃ u, step t = .next u
          ∧ (u.rf.read rd).toNat = ((operand s rs1).toNat + 65536 - (operand s rs2).toNat) % 65536)

/-- R123, bit by bit as R12 gives it. -/
def Obligations.XorDiffersBitByBit : Prop :=
  encode (.xor 4#4 1#4 2#4) = 0x3412#16 ∧
  ∀ (s : State) (rd rs1 rs2 : RegIdx), s.pc.toNat < s.cfg.imemSize →
    (encode (.xor rd rs1 rs2)).toNat = 0x3000 + 256 * rd.toNat + 16 * rs1.toNat + rs2.toNat
    ∧ ∃ t, exec (.xor rd rs1 rs2) s = .next t
      ∧ t.de = { op := .xor, a := operand s rs1, b := operand s rs2, wen := true, rd := rd, isBranch := false }
      ∧ t.fault = s.fault ∧ (execute t.de).branchTaken = false
      ∧ (cycleRuns t = true → ∃ u, step t = .next u
          ∧ ∀ k, (u.rf.read rd).getLsbD k = ((operand s rs1).getLsbD k != (operand s rs2).getLsbD k))

/-- R124, bit by bit as R12 gives it. -/
def Obligations.AndMeetsBitByBit : Prop :=
  encode (.and 5#4 1#4 2#4) = 0x4512#16 ∧
  ∀ (s : State) (rd rs1 rs2 : RegIdx), s.pc.toNat < s.cfg.imemSize →
    (encode (.and rd rs1 rs2)).toNat = 0x4000 + 256 * rd.toNat + 16 * rs1.toNat + rs2.toNat
    ∧ ∃ t, exec (.and rd rs1 rs2) s = .next t
      ∧ t.de = { op := .and, a := operand s rs1, b := operand s rs2, wen := true, rd := rd, isBranch := false }
      ∧ t.fault = s.fault ∧ (execute t.de).branchTaken = false
      ∧ (cycleRuns t = true → ∃ u, step t = .next u
          ∧ ∀ k, (u.rf.read rd).getLsbD k = ((operand s rs1).getLsbD k && (operand s rs2).getLsbD k))

/-- R125, bit by bit as R12 gives it. -/
def Obligations.OrJoinsBitByBit : Prop :=
  encode (.or 6#4 1#4 2#4) = 0x5612#16 ∧
  ∀ (s : State) (rd rs1 rs2 : RegIdx), s.pc.toNat < s.cfg.imemSize →
    (encode (.or rd rs1 rs2)).toNat = 0x5000 + 256 * rd.toNat + 16 * rs1.toNat + rs2.toNat
    ∧ ∃ t, exec (.or rd rs1 rs2) s = .next t
      ∧ t.de = { op := .or, a := operand s rs1, b := operand s rs2, wen := true, rd := rd, isBranch := false }
      ∧ t.fault = s.fault ∧ (execute t.de).branchTaken = false
      ∧ (cycleRuns t = true → ∃ u, step t = .next u
          ∧ ∀ k, (u.rf.read rd).getLsbD k = ((operand s rs1).getLsbD k || (operand s rs2).getLsbD k))

/-- R140, R141: JUMP in Decode latches its own fetch-time pc and its offset, writes nothing, and the cycle after takes
the branch: the delay slot's instruction runs, FD is squashed, and the pc becomes the target unless that cycle is stalled. -/
def Obligations.JumpReachesItsTarget : Prop :=
  encode (.jump 3#12) = 0x6003#16 ∧
  ∀ (s : State) (imm12 : Imm12), s.pc.toNat < s.cfg.imemSize →
    (encode (.jump imm12)).toNat = 0x6000 + imm12.toNat
    ∧ ∃ t, exec (.jump imm12) s = .next t
      ∧ t.de.op = .add ∧ t.de.a = s.fd.pc ∧ t.de.b.toInt = imm12.toInt
      ∧ t.de.wen = false ∧ t.de.rd = 0#4 ∧ t.de.isBranch = true ∧ t.fault = s.fault
      ∧ (cycleRuns t = true → ∃ u, step t = .next u
          ∧ (∀ i, t.fd.valid = true → decode t.fd.word = .instr i → exec i t = .next u)
          ∧ u.rf = t.rf
          ∧ u.fd = { valid := false, word := 0x0000#16, pc := t.pc }
          ∧ (t.input.stall = true → u.pc = t.pc)
          ∧ (t.input.stall = false → (u.pc.toNat : Int) = (s.fd.pc.toNat + imm12.toInt) % 65536))

/-- R91, R106: an instruction in Decode sees every register as all older instructions write it, and its own effect is in
the register file two cycles on. In a configuration in which no fault can occur, only reset being low is asked. -/
def Obligations.IssuedEffectCommitsNextCycle : Prop :=
  ∀ (s : State) (i : Instr), s.cfg.imemSize = 65536 → s.cfg.unrecognized = .nop → s.fault = none →
    s.input.rst = false → (s.inputs.tail.headD CycleInput.idle).rst = false → s.fd.valid = true →
    decode s.fd.word = .instr i →
    ∃ t u, step s = .next t ∧ step t = .next u ∧ t.rf = s.archRf ∧ u.rf = effect (.instr i) s.archRf

/-- R127, R73: AND rX rX rX and OR rX rX rX change no register. -/
def Obligations.IdleInstructionsKeepRegisters : Prop :=
  ∀ (s : State) (r : RegIdx), s.pc.toNat < s.cfg.imemSize →
    (∃ t, exec (.and r r r) s = .next t ∧ t.archRf = s.archRf)
      ∧ (∃ t, exec (.or r r r) s = .next t ∧ t.archRf = s.archRf)

/-- R122, R123: SUB and XOR of a register with itself make zero, whatever it holds. -/
def Obligations.SubAndXorOfOneRegisterMakeZero : Prop :=
  ∀ (s : State) (rd r : RegIdx), s.pc.toNat < s.cfg.imemSize →
    (∃ t, exec (.sub rd r r) s = .next t ∧ t.archRf.read rd = 0x0000#16)
      ∧ (∃ t, exec (.xor rd r r) s = .next t ∧ t.archRf.read rd = 0x0000#16)

/-! ### Frames -/

/-- The frame of ADD, SUB, XOR, AND and OR: of the registers as older instructions leave them only `rd` may change; the
register file itself changes only where the instruction in Execute writes; all memory and the parameters stay; a
fault can come only from Fetch. -/
def Obligations.RegisterInstructionFrame : Prop :=
  ∀ (op : AluOp) (rd rs1 rs2 : RegIdx) (s t : State), exec (regOp op rd rs1 rs2) s = .next t →
    (∀ r, r ≠ rd → t.archRf.read r = s.archRf.read r)
      ∧ (∀ r, (s.de.wen = true → r ≠ s.de.rd) → t.rf.read r = s.rf.read r)
      ∧ (∀ a, t.imem.read a = s.imem.read a)
      ∧ t.cfg = s.cfg ∧ t.inputs = s.inputs.tail
      ∧ (t.fault = s.fault ∨ (s.cfg.imemSize ≤ s.pc.toNat ∧ t.fault = some (.outOfRangeFetch s.pc)))

/-- The frame of JUMP: no register, no memory, no parameter. -/
def Obligations.JumpFrame : Prop :=
  ∀ (imm12 : Imm12) (s t : State), exec (.jump imm12) s = .next t →
    (∀ r, t.archRf.read r = s.archRf.read r)
      ∧ (∀ r, (s.de.wen = true → r ≠ s.de.rd) → t.rf.read r = s.rf.read r)
      ∧ (∀ a, t.imem.read a = s.imem.read a)
      ∧ t.cfg = s.cfg ∧ t.inputs = s.inputs.tail
      ∧ (t.fault = s.fault ∨ (s.cfg.imemSize ≤ s.pc.toNat ∧ t.fault = some (.outOfRangeFetch s.pc)))

/-! ### The stages -/

/-- R89, R90: each operand is resolved on its own, from Execute's result when Execute writes that register, else from
the committed register; a JUMP takes its fetch-time pc and its sign-extended immediate. -/
def Obligations.OperandsAreForwarded : Prop :=
  (∀ (op : AluOp) (rd rs1 rs2 : RegIdx) (s : State), s.pc.toNat < s.cfg.imemSize →
    ∃ t, exec (regOp op rd rs1 rs2) s = .next t
      ∧ (s.de.wen = true ∧ s.de.rd = rs1 → t.de.a = alu s.de.op s.de.a s.de.b)
      ∧ (¬ (s.de.wen = true ∧ s.de.rd = rs1) → t.de.a = s.rf.read rs1)
      ∧ (s.de.wen = true ∧ s.de.rd = rs2 → t.de.b = alu s.de.op s.de.a s.de.b)
      ∧ (¬ (s.de.wen = true ∧ s.de.rd = rs2) → t.de.b = s.rf.read rs2))
    ∧ (∀ (imm12 : Imm12) (s : State), s.pc.toNat < s.cfg.imemSize →
      ∃ t, exec (.jump imm12) s = .next t ∧ t.de.a = s.fd.pc
        ∧ (∀ k, k < 12 → t.de.b.getLsbD k = imm12.getLsbD k)
        ∧ (∀ k, 12 ≤ k → k < 16 → t.de.b.getLsbD k = imm12.getLsbD 11))

/-- R86: the one register write of a cycle. -/
def Obligations.ExecuteWritesOneRegister : Prop :=
  ∀ s : State, cycleRuns s = true → ∃ t, step s = .next t
    ∧ (s.de.wen = true → t.rf.read s.de.rd = alu s.de.op s.de.a s.de.b ∧ ∀ r, r ≠ s.de.rd → t.rf.read r = s.rf.read r)
    ∧ (s.de.wen = false → t.rf = s.rf)

/-- R22: register 0 is written and read like every other. -/
def Obligations.RegisterZeroIsOrdinary : Prop :=
  ∀ s : State, cycleRuns s = true → s.de.wen = true → s.de.rd = 0#4 →
    ∃ t, step s = .next t ∧ readRegister 0 t = .ok (alu s.de.op s.de.a s.de.b)
      ∧ (∀ r, operand s r = if r = 0#4 then alu s.de.op s.de.a s.de.b else s.rf.read r)

/-- R98: hold, then jump, then increment modulo 2^16. With stall and a taken branch together the word is squashed and the
target is used neither now nor later: the next state is the same whatever JUMP's operands, so whatever its target. -/
def Obligations.NextPcPriority : Prop :=
  ∀ s : State, cycleRuns s = true → ∃ t, step s = .next t
    ∧ (s.input.stall = true → t.pc = s.pc)
    ∧ (s.input.stall = false → s.de.isBranch = true → t.pc = alu s.de.op s.de.a s.de.b)
    ∧ (s.input.stall = false → s.de.isBranch = false → t.pc.toNat = (s.pc.toNat + 1) % 65536)
    ∧ (s.input.stall = true → s.de.isBranch = true → s.de.wen = false →
        t.fd = { valid := false, word := 0x0000#16, pc := s.pc }
          ∧ ∀ x y : Word, step { s with de := { s.de with a := x, b := y } } = .next t)

/-- R96, R97, R99: what FD latches, under each policy. -/
def Obligations.FetchRegisterLatch : Prop :=
  ∀ s : State, cycleRuns s = true → ∃ t, step s = .next t
    ∧ (s.de.isBranch = true → t.fd = { valid := false, word := 0x0000#16, pc := s.pc })
    ∧ (s.de.isBranch = false → s.input.stall = false ∨ s.cfg.stallFetch = .refetch →
        t.fd = { valid := true, word := s.imem.read s.pc.toNat, pc := s.pc })
    ∧ (s.de.isBranch = false → s.input.stall = true → s.cfg.stallFetch = .bubble →
        t.fd = { valid := false, word := 0x0000#16, pc := s.pc })
    ∧ (s.de.isBranch = false → s.input.stall = true → s.cfg.stallFetch = .hold → t.fd = s.fd)

/-- R87, R104: the squash marker issues a bubble under either policy: no decode, no `DecodeError`. -/
def Obligations.SquashMarkerIssuesBubble : Prop :=
  ∀ s : State, s.input.rst = false → s.fault = none → s.fd.valid = false → s.pc.toNat < s.cfg.imemSize →
    ∃ t, step s = .next t ∧ t.fault = none
      ∧ t.de = { op := .add, a := 0x0000#16, b := 0x0000#16, wen := false, rd := 0#4, isBranch := false }

/-- R94: a valid word of unassigned opcode is a bubble under `nop` and a `DecodeError` under `fault`; an invalid FD never
raises one. -/
def Obligations.UnassignedOpcodeFollowsPolicy : Prop :=
  ∀ s : State, s.input.rst = false → s.fault = none →
    (s.fd.valid = true → decode s.fd.word = .unrecognized →
      (s.cfg.unrecognized = .nop → s.pc.toNat < s.cfg.imemSize →
        ∃ t, step s = .next t ∧ t.fault = none ∧ t.de = DeReg.bubble)
      ∧ (s.cfg.unrecognized = .fault →
        ∃ t, step s = .next t ∧ t.fault = some (.decodeError s.fd.word s.fd.pc)))
    ∧ (s.fd.valid = false → ∀ t w p, step s = .next t → t.fault ≠ some (.decodeError w p))

/-- R36: no cycle latches a DE value that both writes and branches. -/
def Obligations.NoEntryWritesAndBranches : Prop :=
  ∀ s t : State, step s = .next t → t.fault = none → ¬ (t.de.wen = true ∧ t.de.isBranch = true)

/-- R142, R143: while a JUMP is in Execute the instruction in Decode runs, the word being fetched is squashed, and the
cycle after issues nothing. -/
def Obligations.DelaySlotRunsAndNextIsSquashed : Prop :=
  ∀ (s : State) (i : Instr), cycleRuns s = true → s.de.isBranch = true → s.fd.valid = true →
    decode s.fd.word = .instr i →
    ∃ t, step s = .next t ∧ step s = exec i s ∧ t.fault = none ∧ t.fd.valid = false
      ∧ (cycleRuns t = true → ∃ u, step t = .next u ∧ u.de = DeReg.bubble)

/-- R144: a JUMP in the delay slot of a JUMP. Neither the word after it nor the first target is decoded, and control goes
to the second JUMP's target, from its own fetch-time pc. -/
def Obligations.JumpInDelaySlotSuppressesFirstTarget : Prop :=
  ∀ (s : State) (k2 : Imm12), cycleRuns s = true → s.de.isBranch = true → s.fd.valid = true →
    decode s.fd.word = .instr (.jump k2) → s.input.stall = false →
    ∃ t, step s = .next t ∧ t.pc = alu s.de.op s.de.a s.de.b ∧ t.fd.valid = false
      ∧ (cycleRuns t = true → t.input.stall = false →
          ∃ u, step t = .next u ∧ u.fd.valid = false ∧ u.de.isBranch = false
            ∧ (u.pc.toNat : Int) = (s.fd.pc.toNat + k2.toInt) % 65536)

/-- R145, R180: a stall in the cycle a JUMP executes loses the jump: the word is squashed, the pc holds, and the next
cycle fetches on from the held pc. -/
def Obligations.StalledJumpIsLost : Prop :=
  ∀ s : State, cycleRuns s = true → s.de.isBranch = true → s.input.stall = true →
    ∃ t, step s = .next t ∧ t.pc = s.pc ∧ t.fd = { valid := false, word := 0x0000#16, pc := s.pc }
      ∧ (cycleRuns t = true → t.input.stall = false → t.de.isBranch = false →
          ∃ u, step t = .next u ∧ u.pc = s.pc + 1#16
            ∧ u.fd = { valid := true, word := s.imem.read s.pc.toNat, pc := s.pc })

/-- R99: what FD latches in a stalled cycle with no taken branch, under each policy, while Decode and Execute go on as in
an unstalled cycle. The cycle after, unstalled, fetches the held pc again (R179). -/
def Obligations.StallLatchesByPolicy : Prop :=
  ∀ s : State, cycleRuns s = true → s.input.stall = true → s.de.isBranch = false →
    ∃ t, step s = .next t ∧ t.pc = s.pc
      ∧ (s.cfg.stallFetch = .refetch → t.fd = { valid := true, word := s.imem.read s.pc.toNat, pc := s.pc })
      ∧ (s.cfg.stallFetch = .bubble → t.fd = { valid := false, word := 0x0000#16, pc := s.pc })
      ∧ (s.cfg.stallFetch = .hold → t.fd = s.fd)
      ∧ (∃ v, step { s with inputs := CycleInput.idle :: s.inputs.tail } = .next v ∧ t.rf = v.rf ∧ t.de = v.de)
      ∧ (cycleRuns t = true → t.input.stall = false → t.de.isBranch = false →
          ∃ u, step t = .next u ∧ u.fd = { valid := true, word := s.imem.read s.pc.toNat, pc := s.pc })

/-- R159, R166: `stall` touches only the pc and FD: a stalled and an unstalled cycle from one state agree on everything
else. -/
def Obligations.StallTouchesOnlyPcAndFd : Prop :=
  ∀ s t : State, step (drive { rst := false, stall := false } s) = .next t →
    ∃ u, step (drive { rst := false, stall := true } s) = .next u
      ∧ u.rf = t.rf ∧ u.de = t.de ∧ u.fault = t.fault ∧ u.imem = t.imem ∧ u.cfg = t.cfg ∧ u.inputs = t.inputs

/-- R75: the policy for unassigned opcodes has no part in what an instruction does. -/
def Obligations.PolicyLeavesInstructionsAlone : Prop :=
  ∀ (i : Instr) (s : State) (p : UnrecognizedPolicy), ∃ t,
    exec i s = .next t
      ∧ exec i { s with cfg := { s.cfg with unrecognized := p } }
        = .next { t with cfg := { t.cfg with unrecognized := p } }

/-! ### Faults -/

/-- R47, R95, R153: a fetch at or above IMEM_SIZE faults in every cycle of every instruction, stalled or squashed
included; with 65536 words it cannot. -/
def Obligations.FetchOutOfRangeFaults : Prop :=
  (∀ (i : Instr) (s : State), s.cfg.imemSize ≤ s.pc.toNat →
    ∃ t, exec i s = .next t ∧ t.fault = some (.outOfRangeFetch s.pc)
      ∧ t.pc = s.pc ∧ t.rf = s.rf ∧ t.fd = s.fd ∧ t.de = s.de ∧ t.imem = s.imem)
    ∧ (∀ s : State, s.input.rst = false → s.fault = none → decodeFails s = false → s.cfg.imemSize ≤ s.pc.toNat →
      ∃ t, step s = .next t ∧ t.fault = some (.outOfRangeFetch s.pc))
    ∧ (∀ s t : State, s.cfg.imemSize = 65536 → s.fault = none → step s = .next t →
      ∀ p, t.fault ≠ some (.outOfRangeFetch p))

/-- R156: with both faults due in one cycle, `DecodeError` is the one recorded. -/
def Obligations.DecodeErrorComesFirst : Prop :=
  ∀ s : State, s.input.rst = false → s.fault = none → decodeFails s = true → s.cfg.imemSize ≤ s.pc.toNat →
    ∃ t, step s = .next t ∧ t.fault = some (.decodeError s.fd.word s.fd.pc)

/-- R102: a cycle that faults latches nothing but the mark, drops Execute's write, and its fault is what `step(stall)`
returns to the host. -/
def Obligations.FaultingCycleLatchesNothing : Prop :=
  (∀ (s t : State) (stall : Bool) (f : Fault), step (drive { rst := false, stall := stall } s) = .next t →
    t.fault = some f → driverStep stall s = (t, .fault f))
  ∧ ∀ (s t : State) (f : Fault), step s = .next t → t.fault = some f →
    s.fault = none ∧ t.pc = s.pc ∧ t.rf = s.rf ∧ t.fd = s.fd ∧ t.de = s.de ∧ t.imem = s.imem ∧ t.cfg = s.cfg
      ∧ ((f = .decodeError s.fd.word s.fd.pc ∧ s.fd.valid = true ∧ decode s.fd.word = .unrecognized
            ∧ s.cfg.unrecognized = .fault)
          ∨ (f = .outOfRangeFetch s.pc ∧ s.cfg.imemSize ≤ s.pc.toNat))

/-- R103: a faulted core refuses every step with the recorded fault and still answers reads; only reset goes on. -/
def Obligations.FaultedCoreRefusesUntilReset : Prop :=
  ∀ (s : State) (f : Fault), s.fault = some f →
    (s.input.rst = false → step s = .refused (.coreFaulted f))
      ∧ (∀ stall, driverStep stall s = (s, .refused (.coreFaulted f)))
      ∧ (∀ r : RegIdx, readRegister r.toNat s = .ok (s.rf.read r))
      ∧ readPc s = s.pc
      ∧ (s.input.rst = true → ∃ t, step s = .next t ∧ t.fault = none)

/-- R151: the codes, and `fault_code` of R80. -/
def Obligations.FaultCodesAsTabled : Prop :=
  ∀ (s : State) (w p : Word) (n : Nat),
    (s.fault = none → faultCode s = 0#2)
      ∧ (s.fault = some (.decodeError w p) → faultCode s = 1#2)
      ∧ (s.fault = some (.outOfRangeFetch p) → faultCode s = 2#2)
      ∧ Fault.code (.outOfRangeLoad n) = 2#2 ∧ Fault.code (.registerIndexOutOfRange n) = 3#2

/-- R47, R152: in the reference values of the two parameters no cycle stops. -/
def Obligations.ReferenceConfigurationNeverStops : Prop :=
  ∀ s : State, s.cfg.imemSize = 65536 → s.cfg.unrecognized = .nop → s.fault = none →
    ∃ t, step s = .next t ∧ t.fault = none

/-! ### Reset and the host -/

/-- R170: the reset edge, from any state, faulted or not, stalled or not; a second one changes nothing more. -/
def Obligations.ResetEdgeState : Prop :=
  ∀ s : State, s.input.rst = true →
    ∃ t, step s = .next t ∧ t.pc = 0x0000#16 ∧ t.fd = { valid := false, word := 0x0000#16, pc := 0x0000#16 }
      ∧ t.de = { op := .add, a := 0x0000#16, b := 0x0000#16, wen := false, rd := 0#4, isBranch := false }
      ∧ t.fault = none ∧ t.rf = s.rf ∧ t.imem = s.imem ∧ t.cfg = s.cfg
      ∧ (t.input.rst = true → step t = .next { t with inputs := t.inputs.tail })

/-- R27, R34, R35, R38: what `State.reset` holds where the spec gives the value. -/
def Obligations.ResetStateAsTabled : Prop :=
  State.reset.pc = 0x0000#16 ∧ State.reset.fd = { valid := false, word := 0x0000#16, pc := 0x0000#16 }
    ∧ State.reset.de = { op := .add, a := 0x0000#16, b := 0x0000#16, wen := false, rd := 0#4, isBranch := false }
    ∧ State.reset.fault = none

/-- R44, R154: `load_program` in reset. -/
def Obligations.LoadProgramFillsMemory : Prop :=
  ∀ (s : State) (words : List Word), s.input.rst = true →
    (words.length ≤ s.cfg.imemSize → ∃ t, loadProgram words s = .ok t
      ∧ (∀ a, a < words.length → words[a]? = some (t.imem.read a))
      ∧ (∀ a, words.length ≤ a → a < s.cfg.imemSize → t.imem.read a = 0x0000#16)
      ∧ t = { s with imem := t.imem })
    ∧ (s.cfg.imemSize < words.length → loadProgram words s = .error (.outOfRangeLoad words.length))

/-- R171, R174: the state a run starts in, for every configuration, every `RF_INIT` and every program that fits. -/
def Obligations.BootGivesTheLaunchState : Prop :=
  ∀ (cfg : Config) (rfInit : RegFile) (words : List Word), words.length ≤ cfg.imemSize →
    ∃ s, boot cfg rfInit words = .ok s ∧ s.rf = rfInit ∧ s.cfg = cfg ∧ s.pc = 0x0000#16
      ∧ s.fd = { valid := false, word := 0x0000#16, pc := 0x0000#16 }
      ∧ s.de = { op := .add, a := 0x0000#16, b := 0x0000#16, wen := false, rd := 0#4, isBranch := false }
      ∧ s.fault = none ∧ (∀ a, s.imem.read a = words.getD a 0x0000#16)

/-- R155, R107: `read_register` answers the committed value, or the error for an index above 15. -/
def Obligations.ReadRegisterAnswers : Prop :=
  ∀ s : State, (∀ r : RegIdx, readRegister r.toNat s = .ok (s.rf.read r))
    ∧ (∀ i, 15 < i → readRegister i s = .error (.registerIndexOutOfRange i))

/-- R102, R82: a fetch out of range is returned to the host by `step(stall)` in the cycle it is raised, and the state it
leaves is the old one with the mark set. -/
def Obligations.DriverStepReturnsTheFault : Prop :=
  ∀ (s : State) (stall : Bool), s.fault = none → decodeFails s = false → s.cfg.imemSize ≤ s.pc.toNat →
    driverStep stall s = ({ s with fault := some (.outOfRangeFetch s.pc) }, .fault (.outOfRangeFetch s.pc))

/-- R175: from an empty pipeline, as reset leaves it, the first two cycles write no register, whatever the program. -/
def Obligations.FirstTwoCyclesWriteNothing : Prop :=
  ∀ s t u : State, s.fd.valid = false → s.de = DeReg.bubble → step s = .next t → step t = .next u → u.rf = s.rf

/-! ### Whole-machine rules -/

/-- R42: nothing CORE does writes instruction memory. -/
def Obligations.InstructionMemoryIsReadOnly : Prop :=
  (∀ s t : State, step s = .next t → t.imem = s.imem)
    ∧ (∀ (i : Instr) (s t : State), exec i s = .next t → t.imem = s.imem)

/-- R174: registers that are all zero stay all zero. -/
def Obligations.ZeroRegistersStayZero : Prop :=
  ∀ s t : State, step s = .next t →
    (∀ r, s.rf.read r = 0x0000#16) → (s.de.wen = true → s.de.a = 0x0000#16 ∧ s.de.b = 0x0000#16) →
    (∀ r, t.rf.read r = 0x0000#16) ∧ (t.de.wen = true → t.de.a = 0x0000#16 ∧ t.de.b = 0x0000#16)

/-- The invariant at reset. -/
def Obligations.ResetMeetsTheInvariant : Prop := State.reset.inv = true

/-- Every step keeps the invariant: memory canonical and within its size, FD in agreement with memory, DE in one of the
three forms, every recorded fault explained by the frozen state. -/
def Obligations.StepKeepsTheInvariant : Prop :=
  ∀ s t : State, s.inv = true → step s = .next t → t.inv = true

/-- R91, R106, R142 to R144, R183: with no stall and no reset, the pipeline runs as the sequential machine with one delay
slot: from an instruction boundary, `n` sequential steps are exactly their clock cycles, and end at the boundary the
sequential machine reaches, with its registers. -/
def Obligations.PipelineRefinesSequentialMachine : Prop :=
  ∀ (n : Nat) (s : State) (q : SeqState), aligned s q →
    ∃ t : State, Host.Core.run Sys2Proof.core (seqRun s.imem n q).2 s = .next t
      ∧ aligned t (seqRun s.imem n q).1 ∧ t.imem = s.imem
end

