-- ==== Sys2Proof/Laws/Memory.lean ====
section
/-! SUPPORT. Instruction memory and the register file: read after write, and that every memory operation keeps the
canonical form. -/

namespace Sys2Proof.Machine

@[simp] theorem Memory.read_nil (a : Nat) : Memory.read [] a = Memory.fill := rfl

/-- Where every listed address lies above `a`, `a` is not listed. -/
theorem Memory.read_of_all_above (m : Memory) (a : Nat) (h : ∀ c ∈ m, a < c.1) : m.read a = Memory.fill := by
  induction m with
  | nil => rfl
  | cons c m ih =>
    obtain ⟨k, v⟩ := c
    have hk : a < k := h (k, v) (by simp)
    simp only [Memory.read, if_neg (Nat.ne_of_lt hk)]
    exact ih fun c hc => h c (by simp [hc])

theorem Memory.wf_cons (k : Nat) (v : Word) (m : Memory) :
    Memory.wf ((k, v) :: m) = true ↔ v ≠ Memory.fill ∧ (∀ c ∈ m, k < c.1) ∧ m.wf = true := by
  simp [Memory.wf, and_assoc]

/-- Every address a write leaves listed was listed before or is the one written. -/
theorem Memory.mem_write (m : Memory) (a : Nat) (w : Word) (c : Cell) (h : c ∈ m.write a w) :
    c ∈ m ∨ c = (a, w) := by
  induction m with
  | nil => by_cases hw : w = Memory.fill <;> simp_all [Memory.write]
  | cons d m ih =>
    obtain ⟨k, v⟩ := d
    simp only [Memory.write] at h
    split at h
    · split at h <;> simp_all; tauto
    · split at h
      · split at h <;> simp_all; tauto
      · simp only [List.mem_cons] at h ⊢
        rcases h with h | h
        · exact .inl (.inl h)
        · rcases ih h with h | h
          · exact .inl (.inr h)
          · exact .inr h

/-- A write keeps the canonical form. -/
theorem Memory.write_wf (m : Memory) (a : Nat) (w : Word) (h : m.wf = true) : (m.write a w).wf = true := by
  induction m with
  | nil => by_cases hw : w = Memory.fill <;> simp [Memory.write, Memory.wf, hw]
  | cons c m ih =>
    obtain ⟨k, v⟩ := c
    obtain ⟨hv, hk, hm⟩ := (Memory.wf_cons k v m).1 h
    simp only [Memory.write]
    split
    · split
      · exact h
      · refine (Memory.wf_cons _ _ _).2 ⟨‹_›, fun c hc => ?_, h⟩
        rcases List.mem_cons.1 hc with rfl | hc
        · assumption
        · exact Nat.lt_trans ‹a < k› (hk c hc)
    · split
      · split
        · exact hm
        · subst a; exact (Memory.wf_cons _ _ _).2 ⟨‹_›, hk, hm⟩
      · refine (Memory.wf_cons _ _ _).2 ⟨hv, fun c hc => ?_, ih hm⟩
        rcases Memory.mem_write m a w c hc with hc | rfl
        · exact hk c hc
        · simp only; omega

/-- A write keeps every listed address existing. -/
theorem Memory.write_below (m : Memory) (n a : Nat) (w : Word) (h : m.below n = true) (ha : a < n) :
    (m.write a w).below n = true := by
  simp only [Memory.below, List.all_eq_true, decide_eq_true_eq] at h ⊢
  intro c hc
  rcases Memory.mem_write m a w c hc with hc | rfl
  · exact h c hc
  · exact ha

/-- Reading back the address written. -/
theorem Memory.read_write_same (m : Memory) (a : Nat) (w : Word) (h : m.wf = true) : (m.write a w).read a = w := by
  induction m with
  | nil => by_cases hw : w = Memory.fill <;> simp [Memory.write, Memory.read, hw]
  | cons c m ih =>
    obtain ⟨k, v⟩ := c
    obtain ⟨-, hk, hm⟩ := (Memory.wf_cons k v m).1 h
    simp only [Memory.write]
    split
    · split
      · subst w
        refine Memory.read_of_all_above _ _ fun c hc => ?_
        rcases List.mem_cons.1 hc with rfl | hc
        · assumption
        · exact Nat.lt_trans ‹a < k› (hk c hc)
      · simp [Memory.read]
    · split
      · subst a
        split
        · subst w; exact Memory.read_of_all_above _ _ hk
        · simp [Memory.read]
      · simp only [Memory.read, if_neg ‹¬ a = k›]; exact ih hm

/-- A write leaves every other address alone. -/
theorem Memory.read_write_other (m : Memory) (a b : Nat) (w : Word) (hb : b ≠ a) :
    (m.write a w).read b = m.read b := by
  induction m with
  | nil => by_cases hw : w = Memory.fill <;> simp [Memory.write, Memory.read, hw, hb]
  | cons c m ih =>
    obtain ⟨k, v⟩ := c
    simp only [Memory.write]
    split
    · split
      · rfl
      · simp [Memory.read, hb]
    · split
      · subst a
        split <;> simp [Memory.read, hb]
      · simp only [Memory.read, ih]

/-- Every address listed by a loaded image lies in the image. -/
theorem Memory.mem_ofWords (a : Nat) (ws : List Word) (c : Cell) (h : c ∈ Memory.ofWords a ws) :
    a ≤ c.1 ∧ c.1 < a + ws.length := by
  induction ws generalizing a with
  | nil => simp [Memory.ofWords] at h
  | cons w ws ih =>
    simp only [Memory.ofWords] at h
    simp only [List.length_cons]
    split at h
    · have := ih _ h; omega
    · rcases List.mem_cons.1 h with rfl | h
      · simp
      · have := ih _ h; omega

/-- A loaded image is canonical. -/
theorem Memory.ofWords_wf (a : Nat) (ws : List Word) : (Memory.ofWords a ws).wf = true := by
  induction ws generalizing a with
  | nil => rfl
  | cons w ws ih =>
    simp only [Memory.ofWords]
    split
    · exact ih _
    · exact (Memory.wf_cons _ _ _).2 ⟨‹_›, fun c hc => by have := Memory.mem_ofWords _ _ _ hc; omega, ih _⟩

/-- A loaded image that fits lists only addresses that exist. -/
theorem Memory.ofWords_below (n a : Nat) (ws : List Word) (h : a + ws.length ≤ n) :
    (Memory.ofWords a ws).below n = true := by
  simp only [Memory.below, List.all_eq_true, decide_eq_true_eq]
  intro c hc
  have := Memory.mem_ofWords a ws c hc
  omega

/-- A loaded image reads as its words, and as the fill word past them. -/
theorem Memory.read_ofWords (a b : Nat) (ws : List Word) :
    (Memory.ofWords a ws).read (a + b) = ws.getD b Memory.fill := by
  induction ws generalizing a b with
  | nil => simp [Memory.ofWords]
  | cons w ws ih =>
    cases b with
    | zero =>
      simp only [Memory.ofWords]
      split
      · rename_i hw
        rw [Memory.read_of_all_above _ _ fun c hc => by have := Memory.mem_ofWords _ _ _ hc; omega]
        simp [hw]
      · simp [Memory.read]
    | succ b =>
      have h : a + (b + 1) = a + 1 + b := by omega
      simp only [Memory.ofWords]
      split
      · rw [h, ih]; simp
      · simp only [Memory.read, if_neg (by omega : ¬ a + (b + 1) = a)]
        rw [h, ih]; simp

/-- A register reads back what was written to it, r0 included (10_state.md R22). -/
@[simp] theorem RegFile.read_write_same (rf : RegFile) (i : RegIdx) (v : Word) : (rf.write i v).read i = v := by
  simp [RegFile.read, RegFile.write]

/-- A register write leaves the others alone. -/
theorem RegFile.read_write_other (rf : RegFile) (i j : RegIdx) (v : Word) (h : j ≠ i) :
    (rf.write i v).read j = rf.read j := by
  have : i.toNat ≠ j.toNat := fun e => h (BitVec.eq_of_toNat_eq e.symm)
  simp [RegFile.read, RegFile.write, this]

/-- Register files that read alike are equal. -/
theorem RegFile.ext_read (p q : RegFile) (h : ∀ i, p.read i = q.read i) : p = q := by
  refine Vector.ext fun n hn => ?_
  have e := h (BitVec.ofNat 4 n)
  simpa only [RegFile.read, BitVec.toNat_ofNat, Nat.mod_eq_of_lt (show n < 2 ^ 4 from hn)] using e

end Sys2Proof.Machine
end

