-- ==== Sys2Proof/Laws/State.lean ====
section
/-! SUPPORT. One lemma per field for each update of the state, true by unfolding it once, so that no later proof unfolds a
record update. -/

namespace Sys2Proof.Machine

variable (f : Fault) (s : State) (d : DeReg) (w : Word) (x : CycleInput)

@[simp] theorem takeFault_pc : (takeFault f s).pc = s.pc := rfl
@[simp] theorem takeFault_rf : (takeFault f s).rf = s.rf := rfl
@[simp] theorem takeFault_imem : (takeFault f s).imem = s.imem := rfl
@[simp] theorem takeFault_fd : (takeFault f s).fd = s.fd := rfl
@[simp] theorem takeFault_de : (takeFault f s).de = s.de := rfl
@[simp] theorem takeFault_fault : (takeFault f s).fault = some f := rfl
@[simp] theorem takeFault_cfg : (takeFault f s).cfg = s.cfg := rfl
@[simp] theorem takeFault_inputs : (takeFault f s).inputs = s.inputs.tail := rfl

@[simp] theorem resetCycle_pc : (resetCycle s).pc = 0x0000#16 := rfl
@[simp] theorem resetCycle_rf : (resetCycle s).rf = s.rf := rfl
@[simp] theorem resetCycle_imem : (resetCycle s).imem = s.imem := rfl
@[simp] theorem resetCycle_fd : (resetCycle s).fd = FdReg.nop 0x0000#16 := rfl
@[simp] theorem resetCycle_de : (resetCycle s).de = DeReg.bubble := rfl
@[simp] theorem resetCycle_fault : (resetCycle s).fault = none := rfl
@[simp] theorem resetCycle_cfg : (resetCycle s).cfg = s.cfg := rfl
@[simp] theorem resetCycle_inputs : (resetCycle s).inputs = s.inputs.tail := rfl

@[simp] theorem latch_pc : (latch d w s).pc = nextPc s (execute s.de) := rfl
@[simp] theorem latch_rf : (latch d w s).rf = writeBack s.rf (execute s.de) := rfl
@[simp] theorem latch_imem : (latch d w s).imem = s.imem := rfl
@[simp] theorem latch_fd : (latch d w s).fd = nextFd s (execute s.de) w := rfl
@[simp] theorem latch_de : (latch d w s).de = d := rfl
@[simp] theorem latch_fault : (latch d w s).fault = s.fault := rfl
@[simp] theorem latch_cfg : (latch d w s).cfg = s.cfg := rfl
@[simp] theorem latch_inputs : (latch d w s).inputs = s.inputs.tail := rfl

@[simp] theorem placeFetched_pc : (placeFetched w s).pc = s.pc + 1#16 := rfl
@[simp] theorem placeFetched_rf : (placeFetched w s).rf = s.rf := rfl
@[simp] theorem placeFetched_imem :
    (placeFetched w s).imem = if s.pc.toNat < s.cfg.imemSize then s.imem.write s.pc.toNat w else s.imem := rfl
@[simp] theorem placeFetched_fd : (placeFetched w s).fd = { valid := true, word := w, pc := s.pc } := rfl
@[simp] theorem placeFetched_de : (placeFetched w s).de = s.de := rfl
@[simp] theorem placeFetched_fault : (placeFetched w s).fault = s.fault := rfl
@[simp] theorem placeFetched_cfg : (placeFetched w s).cfg = s.cfg := rfl
@[simp] theorem placeFetched_inputs : (placeFetched w s).inputs = s.inputs := rfl

@[simp] theorem drive_pc : (drive x s).pc = s.pc := rfl
@[simp] theorem drive_rf : (drive x s).rf = s.rf := rfl
@[simp] theorem drive_imem : (drive x s).imem = s.imem := rfl
@[simp] theorem drive_fd : (drive x s).fd = s.fd := rfl
@[simp] theorem drive_de : (drive x s).de = s.de := rfl
@[simp] theorem drive_fault : (drive x s).fault = s.fault := rfl
@[simp] theorem drive_cfg : (drive x s).cfg = s.cfg := rfl
@[simp] theorem drive_inputs : (drive x s).inputs = x :: s.inputs := rfl
@[simp] theorem drive_input : (drive x s).input = x := rfl

end Sys2Proof.Machine
end

