-- ==== Sys2Proof/Laws/Cycle.lean ====
section
/-! SUPPORT. What a cycle can do, said once: `finishCycle`, each meaning as a call of it, forwarding, and the inversion of
`step`. -/

namespace Sys2Proof.Machine

/-- A fetch at an existing address lets the cycle latch. -/
theorem finishCycle_of_lt (d : DeReg) (s : State) (h : s.pc.toNat < s.cfg.imemSize) :
    finishCycle d s = .next (latch d (s.imem.read s.pc.toNat) s) := by
  simp [finishCycle, memRead, h]

/-- A fetch where no word exists faults (R47). -/
theorem finishCycle_of_ge (d : DeReg) (s : State) (h : s.cfg.imemSize ≤ s.pc.toNat) :
    finishCycle d s = .next (takeFault (.outOfRangeFetch s.pc) s) := by
  simp [finishCycle, memRead, Nat.not_lt.2 h]

/-- Everything the shared part of a cycle can do. -/
theorem finishCycle_cases (d : DeReg) (s t : State) (h : finishCycle d s = .next t) :
    (s.pc.toNat < s.cfg.imemSize ∧ t = latch d (s.imem.read s.pc.toNat) s)
      ∨ (s.cfg.imemSize ≤ s.pc.toNat ∧ t = takeFault (.outOfRangeFetch s.pc) s) := by
  by_cases hp : s.pc.toNat < s.cfg.imemSize
  · rw [finishCycle_of_lt d s hp] at h; cases h; exact .inl ⟨hp, rfl⟩
  · rw [finishCycle_of_ge d s (Nat.not_lt.1 hp)] at h; cases h; exact .inr ⟨Nat.not_lt.1 hp, rfl⟩

/-- What Decode latches for each instruction (R92, R93). -/
def decodeEntry : Instr → State → DeReg
  | .add rd rs1 rs2, s => regOpEntry .add rd rs1 rs2 s
  | .sub rd rs1 rs2, s => regOpEntry .sub rd rs1 rs2 s
  | .xor rd rs1 rs2, s => regOpEntry .xor rd rs1 rs2 s
  | .and rd rs1 rs2, s => regOpEntry .and rd rs1 rs2 s
  | .or rd rs1 rs2, s  => regOpEntry .or rd rs1 rs2 s
  | .jump imm12, s     => jumpEntry imm12 s

@[simp] theorem decodeEntry_regOp (op : AluOp) (rd rs1 rs2 : RegIdx) (s : State) :
    decodeEntry (regOp op rd rs1 rs2) s = regOpEntry op rd rs1 rs2 s := by
  cases op <;> rfl

/-- Every meaning is the shared cycle over its own DE entry. -/
theorem exec_eq_finishCycle (i : Instr) (s : State) : exec i s = finishCycle (decodeEntry i s) s := by
  cases i <;> rfl

/-- A forwarded operand is the register as the instruction in Execute leaves it (R91). -/
theorem operand_eq_archRf (s : State) (r : RegIdx) : operand s r = s.archRf.read r := by
  unfold operand forward State.archRf writeBack
  by_cases hw : (execute s.de).wen = true
  · by_cases hr : (execute s.de).rd = r
    · subst hr; simp [hw]
    · simp [hw, hr, RegFile.read_write_other _ _ _ _ (Ne.symm hr)]
  · simp [hw]

/-- The kind of cycle, taken apart. -/
theorem issue_cases (s : State) :
    (s.input.rst = true ∧ issue s = .reset)
      ∨ (s.input.rst = false ∧ ∃ f, s.fault = some f ∧ issue s = .halted f)
      ∨ (s.input.rst = false ∧ s.fault = none ∧ s.fd.valid = false ∧ issue s = .bubble)
      ∨ (s.input.rst = false ∧ s.fault = none ∧ s.fd.valid = true ∧
          issue s = Issue.ofDecoded (decode s.fd.word)) := by
  unfold issue
  cases s.input.rst <;> cases s.fault <;> cases s.fd.valid <;> simp

/-- Everything a step that answers a next state can do. -/
theorem step_next_cases (s t : State) (h : step s = .next t) :
    (s.input.rst = true ∧ t = resetCycle s)
      ∨ (s.input.rst = false ∧ s.fault = none ∧ decodeFails s = true
          ∧ t = takeFault (.decodeError s.fd.word s.fd.pc) s)
      ∨ (s.input.rst = false ∧ s.fault = none ∧ decodeFails s = false ∧ s.cfg.imemSize ≤ s.pc.toNat
          ∧ t = takeFault (.outOfRangeFetch s.pc) s)
      ∨ (s.input.rst = false ∧ s.fault = none ∧ decodeFails s = false ∧ s.pc.toNat < s.cfg.imemSize
          ∧ ∃ d, t = latch d (s.imem.read s.pc.toNat) s
            ∧ ((s.fd.valid = false ∧ d = DeReg.bubble)
              ∨ (s.fd.valid = true ∧ decode s.fd.word = .unrecognized ∧ d = DeReg.bubble)
              ∨ (s.fd.valid = true ∧ ∃ i, decode s.fd.word = .instr i ∧ d = decodeEntry i s))) := by
  rcases issue_cases s with ⟨hr, hi⟩ | ⟨hr, f, hf, hi⟩ | ⟨hr, hf, hv, hi⟩ | ⟨hr, hf, hv, hi⟩
  · simp only [step, hi] at h; cases h; exact .inl ⟨hr, rfl⟩
  · simp [step, hi] at h
  · have hd : decodeFails s = false := by simp [decodeFails, hv]
    simp only [step, hi, bubbleCycle] at h
    rcases finishCycle_cases _ _ _ h with ⟨hp, rfl⟩ | ⟨hp, rfl⟩
    · exact .inr (.inr (.inr ⟨hr, hf, hd, hp, _, rfl, .inl ⟨hv, rfl⟩⟩))
    · exact .inr (.inr (.inl ⟨hr, hf, hd, hp, rfl⟩))
  · cases hw : decode s.fd.word with
    | instr i =>
      have hd : decodeFails s = false := by simp [decodeFails, hw]
      simp only [step, hi, hw, Issue.ofDecoded, exec_eq_finishCycle] at h
      rcases finishCycle_cases _ _ _ h with ⟨hp, rfl⟩ | ⟨hp, rfl⟩
      · exact .inr (.inr (.inr ⟨hr, hf, hd, hp, _, rfl, .inr (.inr ⟨hv, i, rfl, rfl⟩)⟩))
      · exact .inr (.inr (.inl ⟨hr, hf, hd, hp, rfl⟩))
    | unrecognized =>
      simp only [step, hi, hw, Issue.ofDecoded, unrecognizedCycle] at h
      cases hu : s.cfg.unrecognized with
      | nop =>
        have hd : decodeFails s = false := by simp [decodeFails, hu]
        simp only [hu] at h
        rcases finishCycle_cases _ _ _ h with ⟨hp, rfl⟩ | ⟨hp, rfl⟩
        · exact .inr (.inr (.inr ⟨hr, hf, hd, hp, _, rfl, .inr (.inl ⟨hv, rfl, rfl⟩)⟩))
        · exact .inr (.inr (.inl ⟨hr, hf, hd, hp, rfl⟩))
      | fault =>
        simp only [hu] at h
        cases h
        exact .inr (.inl ⟨hr, hf, by simp [decodeFails, hv, hw, hu], rfl⟩)

/-- What Decode latches in a cycle that raises no fault (R87, R92 to R94). -/
def nextDe (s : State) : DeReg :=
  if s.fd.valid then
    match decode s.fd.word with
    | .instr i      => decodeEntry i s
    | .unrecognized => DeReg.bubble
  else DeReg.bubble

/-- A cycle that raises no fault latches (R101). -/
theorem step_of_cycleRuns (s : State) (h : cycleRuns s = true) :
    step s = .next (latch (nextDe s) (s.imem.read s.pc.toNat) s) := by
  simp only [cycleRuns, Bool.and_eq_true, Bool.not_eq_true', fetchFails, decide_eq_false_iff_not, Nat.not_le,
    Option.isNone_iff_eq_none] at h
  obtain ⟨⟨⟨hr, hf⟩, hd⟩, hp⟩ := h
  rcases issue_cases s with ⟨hr', -⟩ | ⟨-, f, hf', -⟩ | ⟨-, -, hv, hi⟩ | ⟨-, -, hv, hi⟩
  · simp [hr] at hr'
  · simp [hf] at hf'
  · simp [step, hi, bubbleCycle, finishCycle_of_lt _ _ hp, nextDe, hv]
  · cases hw : decode s.fd.word with
    | instr i => simp [step, hi, hw, Issue.ofDecoded, exec_eq_finishCycle, finishCycle_of_lt _ _ hp, nextDe, hv]
    | unrecognized =>
      have hu : s.cfg.unrecognized = .nop := by
        cases hu : s.cfg.unrecognized with
        | nop => rfl
        | fault => simp [decodeFails, hv, hw, hu] at hd
      simp [step, hi, hw, Issue.ofDecoded, unrecognizedCycle, hu, finishCycle_of_lt _ _ hp, nextDe, hv]

/-- Placing a fetched word keeps memory canonical. -/
theorem placeFetched_imem_wf (w : Word) (s : State) (h : s.imem.wf = true) : (placeFetched w s).imem.wf = true := by
  simp only [placeFetched_imem]
  split
  · exact Memory.write_wf _ _ _ h
  · exact h

/-- Placing a fetched word at an existing address of a core that has not faulted keeps the invariant. -/
theorem placeFetched_inv (w : Word) (s : State) (h : s.inv = true) (hf : s.fault = none)
    (hp : s.pc.toNat < s.cfg.imemSize) : (placeFetched w s).inv = true := by
  simp only [State.inv, Bool.and_eq_true] at h ⊢
  obtain ⟨⟨⟨⟨⟨hc, hw⟩, hb⟩, -⟩, hd⟩, -⟩ := h
  refine ⟨⟨⟨⟨⟨hc, placeFetched_imem_wf w s hw⟩, ?_⟩, ?_⟩, hd⟩, ?_⟩
  · simp only [placeFetched_imem, placeFetched_cfg, if_pos hp]
    exact Memory.write_below _ _ _ _ hb hp
  · simp [State.fdLegal, hp, Memory.read_write_same _ _ _ hw]
  · simp [State.faultExplained, hf]

/-- A loaded program is canonical and lies within memory. -/
theorem loadProgram_imem (ws : List Word) (s t : State) (h : loadProgram ws s = .ok t) :
    t.imem = Memory.ofWords 0 ws ∧ t.imem.wf = true ∧ t.imem.below t.cfg.imemSize = true := by
  simp only [loadProgram] at h
  split at h
  · split at h
    · rename_i hl
      cases h
      exact ⟨rfl, Memory.ofWords_wf 0 ws, Memory.ofWords_below s.cfg.imemSize 0 ws (by omega)⟩
    · cases h
  · cases h

end Sys2Proof.Machine
end

