-- ==== Sys2Proof/Laws/PerInstr.lean ====
section
/-! SUPPORT. The families of per-instruction statements (LAWS.json): the opcode nibble of every instruction's encoding is
the one the opcode table gives it, and the instruction is well formed. -/

namespace Sys2Proof.Laws

/-- Bits 15 to 12 of an instruction's word hold its opcode (30_encoding.md R61, R62). -/
def EncodeOpcode.Statement (i : Instr) : Prop :=
  opcodeField (encode i) = opcodeOf i ∧ i.wellFormed = true

theorem opcodeField_encodeR (o : BitVec 4) (a b c : RegIdx) : opcodeField (encodeR o a b c) = o := by
  apply BitVec.eq_of_getLsbD_eq
  intro n hn
  simp only [opcodeField, encodeR, BitVec.getLsbD_extractLsb', BitVec.getLsbD_append, hn]
  have h1 : ¬ 12 + n < 4 := by omega
  have h2 : ¬ 12 + n - 4 < 4 := by omega
  have h3 : ¬ 12 + n - 4 - 4 < 4 := by omega
  have h4 : 12 + n - 4 - 4 - 4 = n := by omega
  simp [h1, h2, h3, h4]

theorem opcodeField_encodeJ (o : BitVec 4) (a : Imm12) : opcodeField (encodeJ o a) = o := by
  apply BitVec.eq_of_getLsbD_eq
  intro n hn
  simp only [opcodeField, encodeJ, BitVec.getLsbD_extractLsb', BitVec.getLsbD_append, hn]
  have h1 : ¬ 12 + n < 12 := by omega
  have h2 : 12 + n - 12 = n := by omega
  simp [h1, h2]

theorem EncodeOpcode.add (rd rs1 rs2 : RegIdx) : EncodeOpcode.Statement (.add rd rs1 rs2) :=
  ⟨opcodeField_encodeR _ _ _ _, rfl⟩

theorem EncodeOpcode.sub (rd rs1 rs2 : RegIdx) : EncodeOpcode.Statement (.sub rd rs1 rs2) :=
  ⟨opcodeField_encodeR _ _ _ _, rfl⟩

theorem EncodeOpcode.xor (rd rs1 rs2 : RegIdx) : EncodeOpcode.Statement (.xor rd rs1 rs2) :=
  ⟨opcodeField_encodeR _ _ _ _, rfl⟩

theorem EncodeOpcode.and (rd rs1 rs2 : RegIdx) : EncodeOpcode.Statement (.and rd rs1 rs2) :=
  ⟨opcodeField_encodeR _ _ _ _, rfl⟩

theorem EncodeOpcode.or (rd rs1 rs2 : RegIdx) : EncodeOpcode.Statement (.or rd rs1 rs2) :=
  ⟨opcodeField_encodeR _ _ _ _, rfl⟩

theorem EncodeOpcode.jump (imm12 : Imm12) : EncodeOpcode.Statement (.jump imm12) :=
  ⟨opcodeField_encodeJ _ _, rfl⟩

end Sys2Proof.Laws
end

