-- ==== Sys2Proof/Tests/Slice0.lean ====
section
/-! SUPPORT. Tests with expected values from 95_test_vectors.md (the table or trace is named at each), the WellFormed smoke
test, and for every obligation with hypotheses a concrete state that meets them. -/

namespace Sys2Proof.Tests

open Sys2Proof.Machine

/-! ### Helpers -/

def stateOf : Host.Outcome State Fault Refusal → Option State
  | .next s    => some s
  | .fault _   => none
  | .refused _ => none

/-- The registers of V4: r1 = 0x0011, r2 = 0x0022, r3 = 0x0033. -/
def rf4 : RegFile :=
  ((State.reset.rf.write 1#4 0x0011#16).write 2#4 0x0022#16).write 3#4 0x0033#16

/-- V4: the word `w`, fetched at 0x0010, is in Decode and `de` in Execute. -/
def v4 (w : Word) (de : DeReg) : State :=
  { State.reset with pc := 0x0011#16, rf := rf4, fd := { valid := true, word := w, pc := 0x0010#16 }, de := de }

/-- A register instruction in Execute. -/
def ex (op : AluOp) (a b : Word) (rd : RegIdx) : DeReg :=
  { op := op, a := a, b := b, wen := true, rd := rd, isBranch := false }

/-- A JUMP in Execute with target `a + b`. -/
def exJump (a b : Word) : DeReg := { op := .add, a := a, b := b, wen := false, rd := 0#4, isBranch := true }

/-- V5: `s.pc = 8`, `imem[8] = 0x1234`, FD = (1, 0x5555, 7). -/
def v5 (stall : Bool) (de : DeReg) (p : StallFetchPolicy) : State :=
  { State.reset with
    pc := 0x0008#16, imem := [(8, 0x1234#16)], fd := { valid := true, word := 0x5555#16, pc := 0x0007#16 }, de := de,
    cfg := { Config.reference with stallFetch := p }, inputs := [{ rst := false, stall := stall }] }

/-- V6: `n` words of memory, the policy `fault`, the pc at `n`. -/
def v6 (n : Nat) (valid : Bool) (w : Word) (inputs : List CycleInput) : State :=
  { State.reset with
    pc := .ofNat 16 n, fd := { valid := valid, word := w, pc := 0x0001#16 }, de := ex .add 0#16 1#16 1#4,
    cfg := { Config.reference with imemSize := n, unrecognized := .fault }, inputs := inputs }

def deAfter (s : State) : Option DeReg := (stateOf (step s)).map (·.de)
def fdAfter (s : State) : Option FdReg := (stateOf (step s)).map (·.fd)
def pcAfter (s : State) : Option Word := (stateOf (step s)).map (·.pc)
def faultAfter (s : State) : Option (Option Fault) := (stateOf (step s)).map (·.fault)
def regAfter (r : RegIdx) (s : State) : Option Word := (stateOf (step s)).map (·.rf.read r)

/-! ### WellFormed: each check refuses an ill-formed term (R72) -/

theorem test_wf_rd_too_big : (Written.add 16 1 2).wellFormed = false := by decide
theorem test_wf_rs1_too_big : (Written.sub 1 16 2).wellFormed = false := by decide
theorem test_wf_rs2_too_big : (Written.or 1 2 16).wellFormed = false := by decide
theorem test_wf_offset_too_big : (Written.jump 2048).wellFormed = false := by decide
theorem test_wf_offset_too_small : (Written.jump (-2049)).wellFormed = false := by decide
theorem test_wf_offset_limits : (Written.jump 2047).toInstr = some (.jump 0x7FF#12)
    ∧ (Written.jump (-2048)).toInstr = some (.jump 0x800#12) := by decide
theorem test_wf_config : ({ Config.reference with imemSize := 0 } : Config).legal = false := by decide

/-! ### Decode, words written out from R61 and R62 (V1) -/

theorem test_decode_add : decode 0b0001001000010000#16 = .instr (.add 2#4 1#4 0#4) := by decide
theorem test_decode_sub : decode 0b0010001100010010#16 = .instr (.sub 3#4 1#4 2#4) := by decide
theorem test_decode_xor : decode 0b0011010000010010#16 = .instr (.xor 4#4 1#4 2#4) := by decide
theorem test_decode_and : decode 0b0100010100010010#16 = .instr (.and 5#4 1#4 2#4) := by decide
theorem test_decode_or : decode 0b0101011000010010#16 = .instr (.or 6#4 1#4 2#4) := by decide
theorem test_decode_jump : decode 0b0110100000000000#16 = .instr (.jump 0x800#12) := by decide
theorem test_decode_all_ones_fields : decode 0x1FFF#16 = .instr (.add 15#4 15#4 15#4) := by decide
theorem test_decode_unassigned : decode 0x0ABC#16 = .unrecognized ∧ decode 0x7000#16 = .unrecognized
    ∧ decode 0xF123#16 = .unrecognized := by decide
theorem test_encode_sub : encode (.sub 3#4 1#4 2#4) = 0x2312#16 := by decide
theorem test_encode_jump : encode (.jump 0xFFF#12) = 0x6FFF#16 := by decide
theorem test_table_word : decodeTableWord 16 0x5612 = some (.or 6#4 1#4 2#4) := by decide

/-! ### Instructions in Decode (V4) -/

theorem test_add_no_match :
    deAfter (v4 0x1412#16 (ex .add 0x0100#16 0x0001#16 5#4)) = some (ex .add 0x0011#16 0x0022#16 4#4) := by decide
theorem test_sub_forwards_rs1 :
    deAfter (v4 0x2412#16 (ex .add 0x0100#16 0x0001#16 1#4)) = some (ex .sub 0x0101#16 0x0022#16 4#4) := by decide
theorem test_xor_forwards_rs2 :
    deAfter (v4 0x3412#16 (ex .or 0x00F0#16 0x000F#16 2#4)) = some (ex .xor 0x0011#16 0x00FF#16 4#4) := by decide
theorem test_and_forwards_both :
    deAfter (v4 0x4433#16 (ex .sub 0x0005#16 0x0007#16 3#4)) = some (ex .and 0xFFFE#16 0xFFFE#16 4#4) := by decide
theorem test_or_forwards_r0 :
    deAfter (v4 0x5401#16 (ex .add 0x0002#16 0x0003#16 0#4)) = some (ex .or 0x0005#16 0x0011#16 4#4) := by decide
theorem test_jump_reads_no_register :
    deAfter (v4 0x6FFE#16 (ex .add 0x0100#16 0x0001#16 1#4)) = some (exJump 0x0010#16 0xFFFE#16) := by decide
theorem test_jump_in_execute_forwards_nothing :
    deAfter (v4 0x1401#16 (exJump 0x000F#16 0x0003#16)) = some (ex .add 0x0000#16 0x0011#16 4#4) := by decide

/-! ### Instructions in Execute (V2, V3) -/

theorem test_add_wraps : regAfter 3#4 (v4 0#16 (ex .add 0xFFFF#16 0xFFFF#16 3#4)) = some 0xFFFE#16 := by decide
theorem test_sub_order : regAfter 3#4 (v4 0#16 (ex .sub 0x0005#16 0x0007#16 3#4)) = some 0xFFFE#16 := by decide
theorem test_xor_result : regAfter 3#4 (v4 0#16 (ex .xor 0x0F0F#16 0x00FF#16 3#4)) = some 0x0FF0#16 := by decide
theorem test_and_result : regAfter 3#4 (v4 0#16 (ex .and 0x0F0F#16 0x00FF#16 3#4)) = some 0x000F#16 := by decide
theorem test_or_result : regAfter 3#4 (v4 0#16 (ex .or 0x0F0F#16 0x00FF#16 3#4)) = some 0x0FFF#16 := by decide
theorem test_jump_wraps_up : pcAfter (v4 0#16 (exJump 0xFFFF#16 (sext16 0x7FF#12))) = some 0x07FE#16 := by decide
theorem test_jump_backward : pcAfter (v4 0#16 (exJump 0x1000#16 (sext16 0x800#12))) = some 0x0800#16 := by decide

/-! ### Fetch and pc (V5) -/

theorem test_fetch : fdAfter (v5 false DeReg.bubble .hold) = some { valid := true, word := 0x1234#16, pc := 0x0008#16 }
    ∧ pcAfter (v5 false DeReg.bubble .hold) = some 0x0009#16 := by decide
theorem test_branch_squashes : fdAfter (v5 false (exJump 0x0010#16 0x0010#16) .hold) = some (FdReg.nop 0x0008#16)
    ∧ pcAfter (v5 false (exJump 0x0010#16 0x0010#16) .hold) = some 0x0020#16 := by decide
theorem test_stall_refetch :
    fdAfter (v5 true DeReg.bubble .refetch) = some { valid := true, word := 0x1234#16, pc := 0x0008#16 }
      ∧ pcAfter (v5 true DeReg.bubble .refetch) = some 0x0008#16 := by decide
theorem test_stall_bubble : fdAfter (v5 true DeReg.bubble .bubble) = some (FdReg.nop 0x0008#16) := by decide
theorem test_stall_hold :
    fdAfter (v5 true DeReg.bubble .hold) = some { valid := true, word := 0x5555#16, pc := 0x0007#16 } := by decide
theorem test_stalled_jump : fdAfter (v5 true (exJump 0x0010#16 0x0010#16) .hold) = some (FdReg.nop 0x0008#16)
    ∧ pcAfter (v5 true (exJump 0x0010#16 0x0010#16) .hold) = some 0x0008#16 := by decide
theorem test_pc_wraps : pcAfter { State.reset with pc := 0xFFFF#16 } = some 0x0000#16 := by decide

/-! ### Faults and reset (V6, P5) -/

theorem test_fetch_out_of_range : faultAfter (v6 3 false 0#16 []) = some (some (.outOfRangeFetch 3#16))
    ∧ regAfter 1#4 (v6 3 false 0#16 []) = some 0x0000#16 := by decide
theorem test_fetch_out_of_range_stalled :
    faultAfter (v6 3 false 0#16 [{ rst := false, stall := true }]) = some (some (.outOfRangeFetch 3#16)) := by decide
theorem test_decode_error_first :
    faultAfter (v6 2 true 0x7000#16 []) = some (some (.decodeError 0x7000#16 0x0001#16)) := by decide
/-- Also the witness of ReadRegisterAnswers, its second clause. -/
theorem test_bad_register : readRegister 16 State.reset = .error (.registerIndexOutOfRange 16) := by decide
theorem test_image_too_long :
    loadProgram [1#16, 2#16, 3#16, 4#16, 5#16]
      { State.reset with cfg := { Config.reference with imemSize := 4 }, inputs := [{ rst := true, stall := false }] }
      = .error (.outOfRangeLoad 5) := by decide
theorem test_reset_after_fault :
    (stateOf (step { v6 3 false 0#16 [{ rst := true, stall := true }] with fault := some (.outOfRangeFetch 3#16) })).map
      (fun t => (t.pc, t.fd, t.de, t.fault)) = some (0#16, FdReg.nop 0#16, DeReg.bubble, none) := by decide

/-! ### The first instruction after reset, and the canonical memory -/

theorem test_placed_word_runs :
    deAfter (State.reset.withFetchWord 16 0x1210) = some (ex .add 0x0000#16 0x0000#16 2#4) := by decide
theorem test_memory_canonical : (Memory.write [(1, 5#16), (3, 7#16)] 2 6#16) = [(1, 5#16), (2, 6#16), (3, 7#16)]
    ∧ Memory.write [(1, 5#16), (3, 7#16)] 3 0#16 = [(1, 5#16)] ∧ State.reset.imem.wf = true := by decide

/-! ### Witnesses: a state that meets the hypotheses of each obligation that has some

`busy` is an ordinary running state, `slot` has a JUMP in Execute and one in Decode. -/

def idle2 : List CycleInput := [CycleInput.idle, CycleInput.idle]
def busy : State := v4 0x1412#16 (ex .add 0x0100#16 0x0001#16 0#4)
def slot : State := { v4 0x6006#16 (exJump 0x000F#16 0x0003#16) with inputs := idle2 }
def stalled (de : DeReg) (p : StallFetchPolicy) : State :=
  { v5 true de p with fd := { valid := true, word := 0x1110#16, pc := 0x0007#16 } }
def last (s : State) : State := { s with pc := 0xFFFF#16 }
def afterOf (s : State) : State := ((stateOf (step s)).getD State.reset)

/-- DecodeFollowsOpcodeTable, a word for each clause. -/
theorem test_witness_decode_by_opcode :
    (0x1210#16 : Word).toNat / 4096 = 1 ∧ (0x2312#16 : Word).toNat / 4096 = 2 ∧ (0x3412#16 : Word).toNat / 4096 = 3
      ∧ (0x4512#16 : Word).toNat / 4096 = 4 ∧ (0x5FFF#16 : Word).toNat / 4096 = 5 ∧ (0x6000#16 : Word).toNat / 4096 = 6
      ∧ (0x0FFF#16 : Word).toNat / 4096 = 0 ∧ 7 ≤ (0x7000#16 : Word).toNat / 4096 := by decide
/-- DecodeInvertsEncode, its second clause. -/
theorem test_witness_decode_then_encode : decode 0x6FFF#16 = .instr (.jump 0xFFF#12) := by decide
/-- StepRunsDecodedInstruction. -/
theorem test_witness_step_runs_decoded :
    busy.input.rst = false ∧ busy.fault = none ∧ busy.fd.valid = true
      ∧ decode busy.fd.word = .instr (.add 4#4 1#4 2#4) := by decide
/-- PlacedWordIsWhatFetchLeaves. -/
theorem test_witness_placed_word :
    State.reset.fault = none ∧ State.reset.pc.toNat < State.reset.cfg.imemSize ∧ State.reset.imem.wf = true
      ∧ State.reset.fd.valid = false ∧ State.reset.de = DeReg.bubble ∧ State.reset.inputs = [] := by decide
/-- For the six result statements, the idle and zero-making ones, the operands statement: a pc in range, at the top of
memory too, and a next cycle that runs. -/
theorem test_witness_completion :
    busy.pc.toNat < busy.cfg.imemSize ∧ (last busy).pc.toNat < (last busy).cfg.imemSize
      ∧ cycleRuns ((stateOf (exec (.add 4#4 1#4 2#4) busy)).getD State.reset) = true
      ∧ cycleRuns ((stateOf (exec (.sub 4#4 1#4 2#4) busy)).getD State.reset) = true
      ∧ cycleRuns ((stateOf (exec (.xor 4#4 1#4 2#4) busy)).getD State.reset) = true
      ∧ cycleRuns ((stateOf (exec (.and 4#4 1#4 2#4) busy)).getD State.reset) = true
      ∧ cycleRuns ((stateOf (exec (.or 4#4 1#4 2#4) busy)).getD State.reset) = true := by decide
/-- JumpReachesItsTarget, stalled and unstalled. -/
theorem test_witness_jump_completion :
    cycleRuns ((stateOf (exec (.jump 3#12) busy)).getD State.reset) = true
      ∧ ((stateOf (exec (.jump 3#12) busy)).getD State.reset).input.stall = false
      ∧ cycleRuns ((stateOf (exec (.jump 3#12) { busy with inputs := [CycleInput.idle, ⟨false, true⟩] })).getD
          State.reset) = true
      ∧ ((stateOf (exec (.jump 3#12) { busy with inputs := [CycleInput.idle, ⟨false, true⟩] })).getD
          State.reset).input.stall = true := by decide
/-- IssuedEffectCommitsNextCycle. -/
theorem test_witness_issued_effect :
    busy.cfg.imemSize = 65536 ∧ busy.cfg.unrecognized = .nop ∧ busy.fault = none ∧ busy.input.rst = false
      ∧ (busy.inputs.tail.headD CycleInput.idle).rst = false ∧ busy.fd.valid = true
      ∧ decode busy.fd.word = .instr (.add 4#4 1#4 2#4) := by decide
/-- RegisterInstructionFrame, JumpFrame (a latching and a faulting cycle), InstructionMemoryIsReadOnly. -/
theorem test_witness_frames :
    (stateOf (exec (regOp .sub 4#4 1#4 2#4) busy)).isSome = true ∧ (stateOf (exec (.jump 3#12) busy)).isSome = true
      ∧ (stateOf (exec (.jump 3#12) (v6 3 true 0x6003#16 []))).isSome = true := by decide
/-- OperandsAreForwarded, its clauses. -/
theorem test_witness_operands :
    (busy.de.wen = true ∧ busy.de.rd = 0#4) ∧ ¬ (busy.de.wen = true ∧ busy.de.rd = 1#4)
      ∧ ¬ (slot.de.wen = true ∧ slot.de.rd = 0#4) := by decide
/-- ExecuteWritesOneRegister, RegisterZeroIsOrdinary, NextPcPriority and FetchRegisterLatch, their unstalled clauses. -/
theorem test_witness_running_cycle :
    cycleRuns busy = true ∧ busy.de.wen = true ∧ busy.de.rd = 0#4 ∧ busy.de.isBranch = false ∧ busy.input.stall = false
      ∧ cycleRuns slot = true ∧ slot.de.wen = false ∧ slot.de.isBranch = true ∧ slot.input.stall = false
      ∧ cycleRuns (last busy) = true := by decide
/-- StallLatchesByPolicy, and the stalled clauses of NextPcPriority and FetchRegisterLatch. -/
theorem test_witness_stalled_cycle :
    cycleRuns (stalled DeReg.bubble .refetch) = true ∧ (stalled DeReg.bubble .refetch).input.stall = true
      ∧ cycleRuns (stalled DeReg.bubble .bubble) = true ∧ cycleRuns (stalled DeReg.bubble .hold) = true
      ∧ (stalled DeReg.bubble .hold).de.isBranch = false
      ∧ cycleRuns (afterOf (stalled DeReg.bubble .hold)) = true
      ∧ (afterOf (stalled DeReg.bubble .hold)).input.stall = false
      ∧ (afterOf (stalled DeReg.bubble .hold)).de.isBranch = false := by decide
/-- StalledJumpIsLost, and the last clause of NextPcPriority. -/
theorem test_witness_stalled_jump :
    cycleRuns (stalled (exJump 1#16 1#16) .hold) = true ∧ (stalled (exJump 1#16 1#16) .hold).de.isBranch = true
      ∧ (stalled (exJump 1#16 1#16) .hold).de.wen = false ∧ (stalled (exJump 1#16 1#16) .hold).input.stall = true
      ∧ cycleRuns (afterOf (stalled (exJump 1#16 1#16) .hold)) = true
      ∧ (afterOf (stalled (exJump 1#16 1#16) .hold)).input.stall = false
      ∧ (afterOf (stalled (exJump 1#16 1#16) .hold)).de.isBranch = false := by decide
/-- SquashMarkerIssuesBubble, and the last clause of UnassignedOpcodeFollowsPolicy. -/
theorem test_witness_squash_marker :
    State.reset.input.rst = false ∧ State.reset.fault = none ∧ State.reset.fd.valid = false
      ∧ State.reset.pc.toNat < State.reset.cfg.imemSize ∧ (stateOf (step State.reset)).isSome = true := by decide
/-- UnassignedOpcodeFollowsPolicy, under each policy. -/
theorem test_witness_unassigned :
    (v4 0x7000#16 DeReg.bubble).fd.valid = true ∧ decode (v4 0x7000#16 DeReg.bubble).fd.word = .unrecognized
      ∧ (v4 0x7000#16 DeReg.bubble).cfg.unrecognized = .nop ∧ (v6 2 true 0x7000#16 []).cfg.unrecognized = .fault
      ∧ (v6 2 true 0x7000#16 []).fd.valid = true ∧ decode (v6 2 true 0x7000#16 []).fd.word = .unrecognized := by decide
/-- NoEntryWritesAndBranches. -/
theorem test_witness_entry : faultAfter busy = some none := by decide
/-- DelaySlotRunsAndNextIsSquashed and JumpInDelaySlotSuppressesFirstTarget. -/
theorem test_witness_delay_slot :
    cycleRuns slot = true ∧ slot.de.isBranch = true ∧ slot.fd.valid = true ∧ decode slot.fd.word = .instr (.jump 6#12)
      ∧ slot.input.stall = false ∧ cycleRuns (afterOf slot) = true ∧ (afterOf slot).input.stall = false := by decide
/-- StallTouchesOnlyPcAndFd. -/
theorem test_witness_stall_pair : (stateOf (step (drive { rst := false, stall := false } busy))).isSome = true := by decide
/-- FetchOutOfRangeFaults, its three clauses, with the pc exactly at IMEM_SIZE. -/
theorem test_witness_fetch_fault :
    (v6 3 false 0#16 []).cfg.imemSize ≤ (v6 3 false 0#16 []).pc.toNat ∧ (v6 3 false 0#16 []).input.rst = false
      ∧ (v6 3 false 0#16 []).fault = none ∧ decodeFails (v6 3 false 0#16 []) = false
      ∧ (last busy).cfg.imemSize = 65536 ∧ (stateOf (step (last busy))).isSome = true := by decide
/-- DecodeErrorComesFirst. -/
theorem test_witness_both_faults :
    (v6 2 true 0x7000#16 []).input.rst = false ∧ (v6 2 true 0x7000#16 []).fault = none
      ∧ decodeFails (v6 2 true 0x7000#16 []) = true
      ∧ (v6 2 true 0x7000#16 []).cfg.imemSize ≤ (v6 2 true 0x7000#16 []).pc.toNat := by decide
/-- FaultingCycleLatchesNothing, each kind of fault. -/
theorem test_witness_faulting_cycle :
    faultAfter (drive { rst := false, stall := true } (v6 2 true 0x7000#16 []))
        = some (some (.decodeError 0x7000#16 0x0001#16))
      ∧ faultAfter (v6 3 true 0x6003#16 []) = some (some (.outOfRangeFetch 3#16)) := by decide
/-- FaultedCoreRefusesUntilReset with reset low and high, and FaultCodesAsTabled. -/
theorem test_witness_faulted_core :
    (afterOf (v6 3 false 0#16 [])).fault = some (.outOfRangeFetch 3#16)
      ∧ (afterOf (v6 3 false 0#16 [])).input.rst = false
      ∧ (afterOf (v6 3 false 0#16 [CycleInput.idle, ⟨true, false⟩])).fault = some (.outOfRangeFetch 3#16)
      ∧ (afterOf (v6 3 false 0#16 [CycleInput.idle, ⟨true, false⟩])).input.rst = true := by decide
/-- ReferenceConfigurationNeverStops. -/
theorem test_witness_reference :
    busy.cfg.imemSize = 65536 ∧ busy.cfg.unrecognized = .nop ∧ busy.fault = none := by decide
/-- ResetEdgeState, with a second reset edge. -/
theorem test_witness_reset_edge :
    ({ busy with inputs := [⟨true, true⟩, ⟨true, false⟩] } : State).input.rst = true
      ∧ (afterOf { busy with inputs := [⟨true, true⟩, ⟨true, false⟩] }).input.rst = true := by decide
/-- LoadProgramFillsMemory and BootGivesTheLaunchState: a program that just fits and one word too many. -/
theorem test_witness_load :
    ({ State.reset with inputs := [⟨true, false⟩] } : State).input.rst = true
      ∧ ([1#16, 2#16] : List Word).length ≤ ({ Config.reference with imemSize := 2 } : Config).imemSize
      ∧ ({ Config.reference with imemSize := 1 } : Config).imemSize < ([1#16, 2#16] : List Word).length := by decide
/-- DriverStepReturnsTheFault. -/
theorem test_witness_driver_fault :
    (v6 3 false 0#16 []).fault = none ∧ decodeFails (v6 3 false 0#16 []) = false
      ∧ (v6 3 false 0#16 []).cfg.imemSize ≤ (v6 3 false 0#16 []).pc.toNat := by decide
/-- FirstTwoCyclesWriteNothing. -/
theorem test_witness_first_two_cycles :
    State.reset.fd.valid = false ∧ State.reset.de = DeReg.bubble ∧ (stateOf (step State.reset)).isSome = true
      ∧ (stateOf (step (afterOf State.reset))).isSome = true := by decide
/-- ZeroRegistersStayZero, with a writing instruction in Execute. -/
theorem test_witness_zero_registers :
    (∀ r : RegIdx, ({ State.reset with de := ex .sub 0#16 0#16 3#4 } : State).rf.read r = 0#16)
      ∧ (ex .sub 0#16 0#16 3#4).wen = true
      ∧ (stateOf (step { State.reset with de := ex .sub 0#16 0#16 3#4 })).isSome = true := by decide
/-- StepKeepsTheInvariant, a running and a faulted state. -/
theorem test_witness_invariant :
    (afterOf (v6 3 false 0#16 [])).inv = true ∧ (State.reset.withFetchWord 16 0x1210).inv = true
      ∧ (stateOf (step (State.reset.withFetchWord 16 0x1210))).isSome = true := by decide
/-- `aligned` at the start of a program that has a JUMP, its slot, and a register instruction. -/
theorem test_witness_aligned :
    aligned { State.reset with
        pc := 1#16, imem := [(0, 0x6003#16), (1, 0x1100#16), (3, 0x6002#16), (4, 0x6FFF#16)],
        fd := { valid := true, word := 0x6003#16, pc := 0#16 } }
      { pc := 0#16, rf := State.reset.rf } := by
  refine ⟨rfl, rfl, rfl, by decide, rfl, rfl, rfl, ?_⟩
  intro x hx
  cases hx

end Sys2Proof.Tests
end

namespace Sys2Proof.Machine

/-! ### Register writes as a stage's signals perform them -/

variable (s t : State) (d : DeReg) (w : Word) (rf : RegFile) (ex : ExSignals) (r : RegIdx)

@[simp] theorem execute_wen : (execute d).wen = d.wen := rfl
@[simp] theorem execute_rd : (execute d).rd = d.rd := rfl
@[simp] theorem execute_result : (execute d).result = alu d.op d.a d.b := rfl
@[simp] theorem execute_branchTaken : (execute d).branchTaken = d.isBranch := rfl
@[simp] theorem execute_branchTarget : (execute d).branchTarget = alu d.op d.a d.b := rfl

/-- A write-back reaches at most its destination register (R86). -/
theorem writeBack_read_other (h : ex.wen = true → r ≠ ex.rd) : (writeBack rf ex).read r = rf.read r := by
  unfold writeBack
  split
  · exact RegFile.read_write_other _ _ _ _ (h ‹_›)
  · rfl

/-- A write-back that is enabled puts the result in its destination register (R86). -/
theorem writeBack_read_same (h : ex.wen = true) : (writeBack rf ex).read ex.rd = ex.result := by
  simp [writeBack, h]

/-- After a latching cycle the older instructions are those of before and the one just decoded. -/
@[simp] theorem latch_archRf : (latch d w s).archRf = writeBack s.archRf (execute d) := rfl

@[simp] theorem takeFault_archRf (f : Fault) : (takeFault f s).archRf = s.archRf := rfl

/-- The frame of the shared part of a cycle: of the registers as older instructions leave them only the destination of
the latched entry may change, of the committed ones only Execute's; a fault can come only from Fetch. -/
theorem finishCycle_frame (h : finishCycle d s = .next t) :
    (∀ r, (d.wen = true → r ≠ d.rd) → t.archRf.read r = s.archRf.read r)
      ∧ (∀ r, (s.de.wen = true → r ≠ s.de.rd) → t.rf.read r = s.rf.read r)
      ∧ (∀ a, t.imem.read a = s.imem.read a)
      ∧ t.cfg = s.cfg ∧ t.inputs = s.inputs.tail
      ∧ (t.fault = s.fault ∨ (s.cfg.imemSize ≤ s.pc.toNat ∧ t.fault = some (.outOfRangeFetch s.pc))) := by
  rcases finishCycle_cases d s t h with ⟨-, rfl⟩ | ⟨hp, rfl⟩
  · exact ⟨fun r hr => writeBack_read_other _ _ r hr, fun r hr => writeBack_read_other _ _ r hr,
      fun _ => rfl, rfl, rfl, .inl rfl⟩
  · exact ⟨fun _ _ => rfl, fun _ _ => rfl, fun _ => rfl, rfl, rfl, .inr ⟨hp, rfl⟩⟩

/-! ### The forms of DE -/

@[simp] theorem DeReg.bubble_legal : DeReg.bubble.legal = true := rfl

/-- Decode makes a register instruction's or a JUMP's entry, each legal (R92, R93). -/
theorem decodeEntry_legal (i : Instr) : (decodeEntry i s).legal = true := by
  cases i <;> simp [decodeEntry, regOpEntry, jumpEntry, DeReg.legal]

/-- No legal form of DE both writes and branches (R36). -/
theorem DeReg.not_wen_and_isBranch_of_legal (h : d.legal = true) : ¬ (d.wen = true ∧ d.isBranch = true) := by
  rintro ⟨hw, hb⟩
  have hne : d ≠ DeReg.bubble := by
    rintro rfl
    cases hw
  simp [DeReg.legal, hw, hb, hne] at h

/-! ### The invariant, kept by each way a step can end -/

/-- A cycle that raises `DecodeError` records a fault that its state explains. -/
theorem takeFault_decodeError_explained (h : decodeFails s = true) :
    (takeFault (.decodeError s.fd.word s.fd.pc) s).faultExplained = true := by
  have h' : decodeFails (takeFault (.decodeError s.fd.word s.fd.pc) s) = true := h
  simp [State.faultExplained, h']

/-- A cycle whose fetch is out of range records a fault that its state explains. -/
theorem takeFault_outOfRangeFetch_explained (h : s.cfg.imemSize ≤ s.pc.toNat) :
    (takeFault (.outOfRangeFetch s.pc) s).faultExplained = true := by
  simp [State.faultExplained, fetchFails, h]

/-- The three ways a step can end, in the invariant's terms: a reset edge, an explained fault, or the latching of a
legal entry with the word memory holds at an existing address. -/
theorem step_next_reset_or_fault_or_latch (h : step s = .next t) :
    t = resetCycle s
      ∨ (∃ f, (takeFault f s).faultExplained = true ∧ t = takeFault f s)
      ∨ (s.fault = none ∧ s.pc.toNat < s.cfg.imemSize
          ∧ ∃ d, d.legal = true ∧ t = latch d (s.imem.read s.pc.toNat) s) := by
  rcases step_next_cases s t h with
    ⟨-, ht⟩ | ⟨-, -, hd, ht⟩ | ⟨-, -, -, hp, ht⟩ | ⟨-, hf, -, hp, d, ht, hd⟩
  · exact .inl ht
  · exact .inr (.inl ⟨_, takeFault_decodeError_explained s hd, ht⟩)
  · exact .inr (.inl ⟨_, takeFault_outOfRangeFetch_explained s hp, ht⟩)
  · refine .inr (.inr ⟨hf, hp, d, ?_, ht⟩)
    rcases hd with ⟨-, rfl⟩ | ⟨-, -, rfl⟩ | ⟨-, i, -, rfl⟩
    · exact DeReg.bubble_legal
    · exact DeReg.bubble_legal
    · exact decodeEntry_legal s i

theorem State.inv_iff :
    s.inv = true ↔ s.cfg.legal = true ∧ s.imem.wf = true ∧ s.imem.below s.cfg.imemSize = true
      ∧ s.fdLegal = true ∧ s.de.legal = true ∧ s.faultExplained = true := by
  simp only [State.inv, Bool.and_eq_true, and_assoc]

/-- What the squash marker asks of FD, it always meets (R34). -/
theorem State.fdLegal_of_nop (p : Word) (h : s.fd = FdReg.nop p) : s.fdLegal = true := by
  simp [State.fdLegal, h, FdReg.nop]

/-- FD agrees with memory when it holds the word read at an existing address (R97). -/
theorem State.fdLegal_of_fetched (p : Word) (h : s.fd = { valid := true, word := s.imem.read p.toNat, pc := p })
    (hp : p.toNat < s.cfg.imemSize) : s.fdLegal = true := by
  simp [State.fdLegal, h, hp]

/-- What FD latches: the squash marker, the word fetched, or, held by a stall, what it held (R96, R97, R99). -/
theorem nextFd_cases :
    nextFd s ex w = FdReg.nop s.pc ∨ nextFd s ex w = { valid := true, word := w, pc := s.pc }
      ∨ nextFd s ex w = s.fd := by
  unfold nextFd
  split
  · exact .inl rfl
  · split
    · split
      · exact .inr (.inl rfl)
      · exact .inl rfl
      · exact .inr (.inr rfl)
    · exact .inr (.inl rfl)

/-- Latching the word memory holds at an existing address keeps FD in agreement with memory. -/
theorem latch_fdLegal (h : s.fdLegal = true) (hp : s.pc.toNat < s.cfg.imemSize) :
    (latch d (s.imem.read s.pc.toNat) s).fdLegal = true := by
  rcases nextFd_cases s (s.imem.read s.pc.toNat) (execute s.de) with hfd | hfd | hfd
  · exact State.fdLegal_of_nop _ _ hfd
  · exact State.fdLegal_of_fetched _ _ hfd hp
  · simpa only [State.fdLegal, latch_fd, latch_imem, latch_cfg, hfd] using h

theorem resetCycle_inv (h : s.inv = true) : (resetCycle s).inv = true := by
  obtain ⟨hc, hw, hb, -, -, -⟩ := (State.inv_iff s).1 h
  exact (State.inv_iff _).2 ⟨hc, hw, hb, State.fdLegal_of_nop _ _ rfl, DeReg.bubble_legal, rfl⟩

/-- Taking a fault latches nothing, so only its explanation is to be shown (R102). -/
theorem takeFault_inv (f : Fault) (h : s.inv = true) (hf : (takeFault f s).faultExplained = true) :
    (takeFault f s).inv = true := by
  obtain ⟨hc, hw, hb, hfd, hde, -⟩ := (State.inv_iff s).1 h
  exact (State.inv_iff _).2 ⟨hc, hw, hb, hfd, hde, hf⟩

theorem latch_inv (h : s.inv = true) (hf : s.fault = none) (hp : s.pc.toNat < s.cfg.imemSize)
    (hd : d.legal = true) : (latch d (s.imem.read s.pc.toNat) s).inv = true := by
  obtain ⟨hc, hw, hb, hfd, -, -⟩ := (State.inv_iff s).1 h
  exact (State.inv_iff _).2
    ⟨hc, hw, hb, latch_fdLegal s d hfd hp, hd, by simp [State.faultExplained, hf]⟩

end Sys2Proof.Machine

/-! ### The obligations on the state -/

namespace Sys2Proof.Machine

/-- Settles O48: each way a step can end keeps the invariant. -/
theorem stepKeepsTheInvariant : Obligations.StepKeepsTheInvariant := by
  intro s t hs h
  rcases step_next_reset_or_fault_or_latch s t h with rfl | ⟨f, hf, rfl⟩ | ⟨hf, hp, d, hd, rfl⟩
  · exact resetCycle_inv s hs
  · exact takeFault_inv s f hs hf
  · exact latch_inv s d hs hf hp hd

/-- Settles O16: the frame of the shared cycle, for an entry that writes `rd`. -/
theorem registerInstructionFrame : Obligations.RegisterInstructionFrame := by
  intro op rd rs1 rs2 s t h
  rw [exec_eq_finishCycle, decodeEntry_regOp] at h
  obtain ⟨harch, hrest⟩ := finishCycle_frame s t _ h
  exact ⟨fun r hr => harch r fun _ => hr, hrest⟩

/-- Settles O17: the frame of the shared cycle, for an entry that writes no register. -/
theorem jumpFrame : Obligations.JumpFrame := by
  intro imm12 s t h
  rw [exec_eq_finishCycle] at h
  obtain ⟨harch, hrest⟩ := finishCycle_frame s t _ h
  have hwen : (decodeEntry (.jump imm12) s).wen = false := rfl
  exact ⟨fun r => harch r fun hw => by simp [hwen] at hw, hrest⟩

/-- Settles O25: a reset edge latches BUBBLE, a fault-free cycle a legal entry, and neither both writes and branches. -/
theorem noEntryWritesAndBranches : Obligations.NoEntryWritesAndBranches := by
  intro s t h hf
  rcases step_next_reset_or_fault_or_latch s t h with rfl | ⟨f, -, rfl⟩ | ⟨-, -, d, hd, rfl⟩
  · exact DeReg.not_wen_and_isBranch_of_legal _ DeReg.bubble_legal
  · simp at hf
  · exact DeReg.not_wen_and_isBranch_of_legal d hd

/-- Settles O20: the committed file after the cycle and the operands in it are both `archRf`, where r0 holds Execute's
result and every other register its committed value. -/
theorem registerZeroIsOrdinary : Obligations.RegisterZeroIsOrdinary := by
  intro s hs hw hrd
  have hzero : s.archRf.read 0#4 = alu s.de.op s.de.a s.de.b := by
    rw [← hrd]
    exact writeBack_read_same s.rf (execute s.de) hw
  refine ⟨_, step_of_cycleRuns s hs, congrArg Answer.ok hzero, fun r => ?_⟩
  rw [operand_eq_archRf]
  split
  · subst r
    exact hzero
  · exact writeBack_read_other _ _ r fun _ => by simpa [hrd]

/-- Settles O39, by the definition of the reset state. -/
theorem resetStateAsTabled : Obligations.ResetStateAsTabled :=
  ⟨rfl, rfl, rfl, rfl⟩

end Sys2Proof.Machine

/-! ### Fetch faults and the load of instruction memory -/

namespace Sys2Proof.Machine

variable (s t : State) (d : DeReg) (words : List Word)

/-- Every pc names a word when memory has all 65536 (R47). -/
theorem pc_lt_imemSize_of_full (h : s.cfg.imemSize = 65536) : s.pc.toNat < s.cfg.imemSize := by
  rw [h]
  exact s.pc.isLt

/-- Under the policy `nop` Decode raises no fault (R94). -/
theorem decodeFails_of_nop (h : s.cfg.unrecognized = .nop) : decodeFails s = false := by
  simp [decodeFails, h]

/-- A cycle in which Decode raises no fault is the shared cycle over what Decode latches, whether or not Fetch then
faults (R101). -/
theorem step_eq_finishCycle (hr : s.input.rst = false) (hf : s.fault = none) (hd : decodeFails s = false) :
    step s = finishCycle (nextDe s) s := by
  rcases issue_cases s with ⟨hr', -⟩ | ⟨-, f, hf', -⟩ | ⟨-, -, hv, hi⟩ | ⟨-, -, hv, hi⟩
  · simp [hr] at hr'
  · simp [hf] at hf'
  · simp [step, hi, bubbleCycle, nextDe, hv]
  · cases hw : decode s.fd.word with
    | instr i => simp [step, hi, hw, Issue.ofDecoded, exec_eq_finishCycle, nextDe, hv]
    | unrecognized =>
      cases hu : s.cfg.unrecognized with
      | nop => simp [step, hi, hw, Issue.ofDecoded, unrecognizedCycle, hu, nextDe, hv]
      | fault => simp [decodeFails, hv, hw, hu] at hd

/-- A cycle with reset high is the reset edge, whatever else the state holds (R170). -/
theorem step_of_rst (h : s.input.rst = true) : step s = .next (resetCycle s) := by
  simp [step, issue, h]

/-- Whether it latches or Fetch faults, the shared part of a cycle leaves instruction memory alone (R42). -/
theorem finishCycle_imem (h : finishCycle d s = .next t) : t.imem = s.imem := by
  rcases finishCycle_cases d s t h with ⟨-, rfl⟩ | ⟨-, rfl⟩
  · exact latch_imem ..
  · exact takeFault_imem ..

/-- In reset, a program that fits becomes the whole of instruction memory (R44). -/
theorem loadProgram_of_le (hr : s.input.rst = true) (h : words.length ≤ s.cfg.imemSize) :
    loadProgram words s = .ok { s with imem := Memory.ofWords 0 words } := by
  simp [loadProgram, hr, h]

/-- In reset, a program longer than memory is refused whole (R44, R154). -/
theorem loadProgram_of_gt (hr : s.input.rst = true) (h : s.cfg.imemSize < words.length) :
    loadProgram words s = .error (.outOfRangeLoad words.length) := by
  simp [loadProgram, hr, Nat.not_le.2 h]

/-- An image loaded at address 0 reads as its words. -/
theorem Memory.read_ofWords_zero (a : Nat) : (Memory.ofWords 0 words).read a = words.getD a Memory.fill := by
  simpa using Memory.read_ofWords 0 a words

end Sys2Proof.Machine

/-! ### The obligations on instruction memory -/

namespace Sys2Proof.Machine

/-- Settles O32: the shared cycle faults on such a fetch, and every cycle in which Decode does not fault is a shared
cycle; with 65536 words the only way to record the fault would need a pc of at least 2^16. -/
theorem fetchOutOfRangeFaults : Obligations.FetchOutOfRangeFaults := by
  refine ⟨fun i s hp => ?_, fun s hr hf hd hp => ?_, fun s t hsize hf h p => ?_⟩
  · rw [exec_eq_finishCycle, finishCycle_of_ge _ s hp]
    exact ⟨_, rfl, rfl, rfl, rfl, rfl, rfl, rfl⟩
  · rw [step_eq_finishCycle s hr hf hd, finishCycle_of_ge _ s hp]
    exact ⟨_, rfl, rfl⟩
  · rcases step_next_cases s t h with
      ⟨-, rfl⟩ | ⟨-, -, -, rfl⟩ | ⟨-, -, -, hp, -⟩ | ⟨-, -, -, -, d, rfl, -⟩
    · simp
    · simp
    · exact absurd (pc_lt_imemSize_of_full s hsize) (Nat.not_lt.2 hp)
    · simp [hf]

/-- Settles O37: a reset edge clears the mark, and any other cycle latches, for neither Decode nor Fetch can fault. -/
theorem referenceConfigurationNeverStops : Obligations.ReferenceConfigurationNeverStops := by
  intro s hsize hnop hf
  cases hr : s.input.rst with
  | true => exact ⟨_, step_of_rst s hr, resetCycle_fault s⟩
  | false =>
    rw [step_eq_finishCycle s hr hf (decodeFails_of_nop s hnop),
      finishCycle_of_lt _ s (pc_lt_imemSize_of_full s hsize)]
    exact ⟨_, rfl, hf⟩

/-- Settles O40: the loaded image reads as its words and as the fill word past them. -/
theorem loadProgramFillsMemory : Obligations.LoadProgramFillsMemory := by
  intro s words hr
  refine ⟨fun h => ⟨_, loadProgram_of_le s words hr h, fun a ha => ?_, fun a ha _ => ?_, rfl⟩,
    loadProgram_of_gt s words hr⟩
  · rw [Memory.read_ofWords_zero, List.getElem?_eq_getElem ha, List.getD_eq_getElem _ _ ha]
  · rw [Memory.read_ofWords_zero, List.getD_eq_default _ _ ha]
    rfl

/-- Settles O45: a reset edge, a fault and a latch each keep instruction memory, and `exec` is the shared cycle. -/
theorem instructionMemoryIsReadOnly : Obligations.InstructionMemoryIsReadOnly := by
  refine ⟨fun s t h => ?_, fun i s t h => ?_⟩
  · rcases step_next_reset_or_fault_or_latch s t h with rfl | ⟨f, -, rfl⟩ | ⟨-, -, d, -, rfl⟩
    · exact resetCycle_imem s
    · exact takeFault_imem f s
    · exact latch_imem s d _
  · rw [exec_eq_finishCycle] at h
    exact finishCycle_imem s t _ h

end Sys2Proof.Machine

/-! ### The fields of a word and the formats, by arithmetic -/

namespace Sys2Proof

open Sys2Proof.Machine

variable (w : Word) (o : BitVec 4) (op : AluOp) (rd rs1 rs2 : RegIdx) (imm12 : Imm12)

/-- A concatenation is worth its high part, shifted by the width of the low part, plus the low part. -/
theorem toNat_append_eq_add {m n : Nat} (x : BitVec m) (y : BitVec n) :
    (x ++ y).toNat = 2 ^ n * x.toNat + y.toNat := by
  rw [BitVec.toNat_append, ← Nat.shiftLeft_add_eq_or_of_lt y.isLt, Nat.shiftLeft_eq, Nat.mul_comm]

theorem opcodeField_toNat : (opcodeField w).toNat = w.toNat / 4096 := by
  have hw := w.isLt
  simp only [opcodeField, BitVec.extractLsb'_toNat, Nat.shiftRight_eq_div_pow]
  omega

theorem rdField_toNat : (rdField w).toNat = w.toNat / 256 % 16 := by
  simp [rdField, Nat.shiftRight_eq_div_pow]

theorem rs1Field_toNat : (rs1Field w).toNat = w.toNat / 16 % 16 := by
  simp [rs1Field, Nat.shiftRight_eq_div_pow]

theorem rs2Field_toNat : (rs2Field w).toNat = w.toNat % 16 := by
  simp [rs2Field]

theorem imm12Field_toNat : (imm12Field w).toNat = w.toNat % 4096 := by
  simp [imm12Field]

theorem encodeR_toNat :
    (encodeR o rd rs1 rs2).toNat = 4096 * o.toNat + 256 * rd.toNat + 16 * rs1.toNat + rs2.toNat := by
  simp only [encodeR, toNat_append_eq_add]
  omega

theorem encodeJ_toNat : (encodeJ o imm12).toNat = 4096 * o.toNat + imm12.toNat :=
  toNat_append_eq_add o imm12

/-! ### Each format is read back by its fields, and a word is made up of them -/

@[simp] theorem rdField_encodeR : rdField (encodeR o rd rs1 rs2) = rd := by
  apply BitVec.eq_of_toNat_eq
  rw [rdField_toNat, encodeR_toNat]
  omega

@[simp] theorem rs1Field_encodeR : rs1Field (encodeR o rd rs1 rs2) = rs1 := by
  apply BitVec.eq_of_toNat_eq
  rw [rs1Field_toNat, encodeR_toNat]
  omega

@[simp] theorem rs2Field_encodeR : rs2Field (encodeR o rd rs1 rs2) = rs2 := by
  apply BitVec.eq_of_toNat_eq
  rw [rs2Field_toNat, encodeR_toNat]
  omega

@[simp] theorem imm12Field_encodeJ : imm12Field (encodeJ o imm12) = imm12 := by
  apply BitVec.eq_of_toNat_eq
  rw [imm12Field_toNat, encodeJ_toNat]
  omega

@[simp] theorem encodeR_fields : encodeR (opcodeField w) (rdField w) (rs1Field w) (rs2Field w) = w := by
  apply BitVec.eq_of_toNat_eq
  rw [encodeR_toNat, opcodeField_toNat, rdField_toNat, rs1Field_toNat, rs2Field_toNat]
  omega

@[simp] theorem encodeJ_fields : encodeJ (opcodeField w) (imm12Field w) = w := by
  apply BitVec.eq_of_toNat_eq
  rw [encodeJ_toNat, opcodeField_toNat, imm12Field_toNat]
  omega

/-! ### Decode and encode by the two formats -/

/-- The six instructions are the register instructions of the five ALU operations, and JUMP (R62). -/
theorem Instr.eq_regOp_or_eq_jump (i : Instr) :
    (∃ op rd rs1 rs2, i = regOp op rd rs1 rs2) ∨ ∃ imm12, i = .jump imm12 := by
  cases i with
  | add rd rs1 rs2 => exact .inl ⟨.add, rd, rs1, rs2, rfl⟩
  | sub rd rs1 rs2 => exact .inl ⟨.sub, rd, rs1, rs2, rfl⟩
  | xor rd rs1 rs2 => exact .inl ⟨.xor, rd, rs1, rs2, rfl⟩
  | and rd rs1 rs2 => exact .inl ⟨.and, rd, rs1, rs2, rfl⟩
  | or rd rs1 rs2 => exact .inl ⟨.or, rd, rs1, rs2, rfl⟩
  | jump imm12 => exact .inr ⟨imm12, rfl⟩

@[simp] theorem encode_regOp : encode (regOp op rd rs1 rs2) = encodeR op.code rd rs1 rs2 := by
  cases op <;> rfl

@[simp] theorem encode_jump : encode (.jump imm12) = encodeJ 0x6#4 imm12 := rfl

theorem decode_of_opcode_eq_code (h : opcodeField w = op.code) :
    decode w = .instr (regOp op (rdField w) (rs1Field w) (rs2Field w)) := by
  cases op <;> simp [decode, h, AluOp.code, regOp]

theorem decode_of_opcode_eq_six (h : opcodeField w = 0x6#4) : decode w = .instr (.jump (imm12Field w)) := by
  simp [decode, h]

theorem decode_of_opcode_unassigned (hreg : ∀ op : AluOp, opcodeField w ≠ op.code) (hjump : opcodeField w ≠ 0x6#4) :
    decode w = .unrecognized :=
  calc decode w
    _ = if opcodeField w = 0x6#4 then .instr (.jump (imm12Field w)) else .unrecognized :=
      (if_neg (hreg .add)).trans <| (if_neg (hreg .sub)).trans <| (if_neg (hreg .xor)).trans <|
        (if_neg (hreg .and)).trans <| if_neg (hreg .or)
    _ = .unrecognized := if_neg hjump

/-- A word decodes to an instruction only by one of the six assigned opcodes (R62, R67). -/
theorem decode_eq_instr_cases (i : Instr) (h : decode w = .instr i) :
    (∃ op : AluOp, opcodeField w = op.code ∧ i = regOp op (rdField w) (rs1Field w) (rs2Field w))
      ∨ (opcodeField w = 0x6#4 ∧ i = .jump (imm12Field w)) := by
  by_cases hreg : ∃ op : AluOp, opcodeField w = op.code
  · obtain ⟨op, hop⟩ := hreg
    rw [decode_of_opcode_eq_code w op hop] at h
    cases h
    exact .inl ⟨op, hop, rfl⟩
  · by_cases hjump : opcodeField w = 0x6#4
    · rw [decode_of_opcode_eq_six w hjump] at h
      cases h
      exact .inr ⟨hjump, rfl⟩
    · rw [decode_of_opcode_unassigned w (not_exists.1 hreg) hjump] at h
      cases h

theorem decode_encode (i : Instr) : decode (encode i) = .instr i := by
  obtain ⟨op, rd, rs1, rs2, rfl⟩ | ⟨imm12, rfl⟩ := i.eq_regOp_or_eq_jump
  · rw [encode_regOp, decode_of_opcode_eq_code _ op (Laws.opcodeField_encodeR ..)]
    simp
  · rw [encode_jump, decode_of_opcode_eq_six _ (Laws.opcodeField_encodeJ ..)]
    simp

theorem encode_of_decode (i : Instr) (h : decode w = .instr i) : encode i = w := by
  obtain ⟨op, hop, rfl⟩ | ⟨hop, rfl⟩ := decode_eq_instr_cases w i h
  · rw [encode_regOp, ← hop, encodeR_fields]
  · rw [encode_jump, ← hop, encodeJ_fields]

/-! ### Decode by the value of the word -/

theorem AluOp.code_toNat_bounds : 1 ≤ op.code.toNat ∧ op.code.toNat ≤ 5 := by
  cases op <;> decide

theorem decode_of_div_eq_code (h : w.toNat / 4096 = op.code.toNat) :
    decode w = .instr (regOp op (.ofNat 4 (w.toNat / 256 % 16)) (.ofNat 4 (w.toNat / 16 % 16))
      (.ofNat 4 (w.toNat % 16))) := by
  have hop : opcodeField w = op.code := BitVec.eq_of_toNat_eq ((opcodeField_toNat w).trans h)
  simp [decode_of_opcode_eq_code w op hop, ← rdField_toNat, ← rs1Field_toNat, ← rs2Field_toNat]

theorem decode_of_div_eq_six (h : w.toNat / 4096 = 6) : decode w = .instr (.jump (.ofNat 12 (w.toNat % 4096))) := by
  have hop : opcodeField w = 0x6#4 := BitVec.eq_of_toNat_eq ((opcodeField_toNat w).trans h)
  simp [decode_of_opcode_eq_six w hop, ← imm12Field_toNat]

theorem decode_of_div_unassigned (h : w.toNat / 4096 = 0 ∨ 7 ≤ w.toNat / 4096) : decode w = .unrecognized := by
  rw [← opcodeField_toNat] at h
  refine decode_of_opcode_unassigned w (fun op hop => ?_) fun hop => ?_
  · have hcode := AluOp.code_toNat_bounds op
    rw [hop] at h
    omega
  · simp [hop] at h

/-! ### The written forms -/

/-- The written form of the register instruction of an ALU operation (R72). -/
def Written.aluForm : AluOp → Nat → Nat → Nat → Written
  | .add, rd, rs1, rs2 => .add rd rs1 rs2
  | .sub, rd, rs1, rs2 => .sub rd rs1 rs2
  | .xor, rd, rs1, rs2 => .xor rd rs1 rs2
  | .and, rd, rs1, rs2 => .and rd rs1 rs2
  | .or, rd, rs1, rs2  => .or rd rs1 rs2

theorem Written.toInstr_aluForm (rd rs1 rs2 : Nat) :
    (Written.aluForm op rd rs1 rs2).toInstr
      = if rd < 16 ∧ rs1 < 16 ∧ rs2 < 16 then some (regOp op (.ofNat 4 rd) (.ofNat 4 rs1) (.ofNat 4 rs2))
        else none := by
  cases op <;> simp [aluForm, toInstr, wellFormed, regNumberOk, fields, regOp, and_assoc]

theorem Written.toInstr_jump (k : Int) :
    (Written.jump k).toInstr = if -2048 ≤ k ∧ k ≤ 2047 then some (.jump (.ofInt 12 k)) else none := by
  simp [toInstr, wellFormed, offsetOk, fields]

theorem Written.toInstr_aluForm_toNat :
    (Written.aluForm op rd.toNat rs1.toNat rs2.toNat).toInstr = some (regOp op rd rs1 rs2) := by
  rw [toInstr_aluForm, if_pos ⟨rd.isLt, rs1.isLt, rs2.isLt⟩]
  simp

theorem Written.toInstr_jump_toInt : (Written.jump imm12.toInt).toInstr = some (.jump imm12) := by
  rw [toInstr_jump, if_pos ⟨imm12.le_toInt, Int.le_of_lt_add_one imm12.toInt_lt⟩, BitVec.ofInt_toInt]

theorem Written.toInstr_aluForm_eq_none (rd rs1 rs2 : Nat) (h : 15 < rd ∨ 15 < rs1 ∨ 15 < rs2) :
    (Written.aluForm op rd rs1 rs2).toInstr = none := by
  rw [toInstr_aluForm, if_neg (by omega)]

end Sys2Proof

/-! ### The policy for unassigned opcodes -/

namespace Sys2Proof.Machine

variable (p : UnrecognizedPolicy) (s : State) (d : DeReg) (w : Word)

/-- The state with another policy for unassigned opcodes (R8). -/
def State.withPolicy : State :=
  { s with cfg := { s.cfg with unrecognized := p } }

/-- Fetch and Execute read no policy. -/
theorem latch_withPolicy : latch d w (s.withPolicy p) = (latch d w s).withPolicy p := rfl

theorem takeFault_withPolicy (f : Fault) : takeFault f (s.withPolicy p) = (takeFault f s).withPolicy p := rfl

/-- What Decode latches for an instruction depends on no policy. -/
theorem decodeEntry_withPolicy (i : Instr) : decodeEntry i (s.withPolicy p) = decodeEntry i s := by
  cases i <;> rfl

theorem finishCycle_withPolicy :
    ∃ t, finishCycle d s = .next t ∧ finishCycle d (s.withPolicy p) = .next (t.withPolicy p) := by
  rcases Nat.lt_or_ge s.pc.toNat s.cfg.imemSize with hp | hp
  · refine ⟨_, finishCycle_of_lt d s hp, ?_⟩
    rw [finishCycle_of_lt d (s.withPolicy p) hp, ← latch_withPolicy]
    rfl
  · refine ⟨_, finishCycle_of_ge d s hp, ?_⟩
    rw [finishCycle_of_ge d (s.withPolicy p) hp, ← takeFault_withPolicy]
    rfl

end Sys2Proof.Machine

/-! ### The obligations on the encoding -/

namespace Sys2Proof

open Sys2Proof.Machine

/-- Settles O1: each format is read back by its fields, and a word is made up of its fields. -/
theorem decodeInvertsEncode : Obligations.DecodeInvertsEncode := by
  refine ⟨decode_encode, encode_of_decode, fun op rd rs1 rs2 => ?_, encodeJ_toNat _, fun k hlo hhi => ?_⟩
  · rw [encode_regOp, encodeR_toNat]
  · refine ⟨.ofInt 12 k, by rw [Written.toInstr_jump, if_pos ⟨hlo, hhi⟩], ?_⟩
    rw [BitVec.toNat_ofInt]
    omega

/-- Settles O2: the five register opcodes are the codes of the five ALU operations. -/
theorem decodeFollowsOpcodeTable : Obligations.DecodeFollowsOpcodeTable := fun w =>
  ⟨decode_of_div_eq_code w .add, decode_of_div_eq_code w .sub, decode_of_div_eq_code w .xor,
    decode_of_div_eq_code w .and, decode_of_div_eq_code w .or, decode_of_div_eq_six w, decode_of_div_unassigned w⟩

/-- Settles O4: an instruction's own field values, its offset read as signed, are a written form of it. -/
theorem writtenFormsNameInstructions : Obligations.WrittenFormsNameInstructions := by
  refine ⟨fun i => ?_, fun rd rs1 rs2 h => ?_, fun k h => ?_⟩
  · obtain ⟨op, rd, rs1, rs2, rfl⟩ | ⟨imm12, rfl⟩ := i.eq_regOp_or_eq_jump
    · exact ⟨_, Written.toInstr_aluForm_toNat op rd rs1 rs2⟩
    · exact ⟨_, Written.toInstr_jump_toInt imm12⟩
  · have hnone op := Written.toInstr_aluForm_eq_none op rd rs1 rs2 h
    exact ⟨hnone .add, hnone .sub, hnone .xor, hnone .and, hnone .or⟩
  · rw [Written.toInstr_jump, if_neg (by omega)]

end Sys2Proof

/-! ### The obligation on the policy -/

namespace Sys2Proof.Machine

/-- Settles O31: `exec` is the shared cycle over an entry, and neither reads the policy. -/
theorem policyLeavesInstructionsAlone : Obligations.PolicyLeavesInstructionsAlone := by
  intro i s p
  obtain ⟨t, ht, htp⟩ := finishCycle_withPolicy p s (decodeEntry i s)
  refine ⟨t, by rw [exec_eq_finishCycle, ht], ?_⟩
  change exec i (s.withPolicy p) = .next (t.withPolicy p)
  rw [exec_eq_finishCycle, decodeEntry_withPolicy, htp]

end Sys2Proof.Machine

/-! ### The cycles that run, and what each stage latches in one -/

namespace Sys2Proof.Machine

variable (s : State) (ex : ExSignals) (w : Word) (rf : RegFile) (r : RegIdx) (i : Instr)

theorem cycleRuns_iff :
    cycleRuns s = true
      ↔ s.input.rst = false ∧ s.fault = none ∧ decodeFails s = false ∧ s.pc.toNat < s.cfg.imemSize := by
  simp [cycleRuns, fetchFails, and_assoc]

theorem decodeFails_iff :
    decodeFails s = true
      ↔ s.fd.valid = true ∧ decode s.fd.word = .unrecognized ∧ s.cfg.unrecognized = .fault := by
  simp [decodeFails, and_assoc]

/-- Decode of the squash marker raises nothing (R94). -/
theorem decodeFails_of_invalid (h : s.fd.valid = false) : decodeFails s = false := by
  simp [decodeFails, h]

/-- In a configuration in which no fault can occur, every cycle of a core out of reset latches. -/
theorem cycleRuns_of_full_of_nop (hsize : s.cfg.imemSize = 65536) (hnop : s.cfg.unrecognized = .nop)
    (hf : s.fault = none) (hr : s.input.rst = false) : cycleRuns s = true :=
  (cycleRuns_iff s).2 ⟨hr, hf, decodeFails_of_nop s hnop, pc_lt_imemSize_of_full s hsize⟩

/-! ### Decode in a running cycle -/

theorem nextDe_of_invalid (h : s.fd.valid = false) : nextDe s = DeReg.bubble := by
  simp [nextDe, h]

theorem nextDe_of_instr (hv : s.fd.valid = true) (hd : decode s.fd.word = .instr i) :
    nextDe s = decodeEntry i s := by
  simp [nextDe, hv, hd]

theorem nextDe_of_unrecognized (hd : decode s.fd.word = .unrecognized) : nextDe s = DeReg.bubble := by
  simp [nextDe, hd]

/-- A register operand is Execute's result when Execute writes that register (R89, R90). -/
theorem operand_of_written (h : s.de.wen = true ∧ s.de.rd = r) : operand s r = alu s.de.op s.de.a s.de.b := by
  simp [operand, forward, h]

/-- A register operand is the committed register when Execute does not write it (R89, R90). -/
theorem operand_of_not_written (h : ¬ (s.de.wen = true ∧ s.de.rd = r)) : operand s r = s.rf.read r := by
  simp [operand, forward, h]

theorem sext16_getLsbD_of_lt (v : Imm12) (k : Nat) (hk : k < 12) : (sext16 v).getLsbD k = v.getLsbD k := by
  have hk16 : k < 16 := by omega
  rw [sext16, BitVec.getLsbD_signExtend]
  simp only [hk16, hk, decide_true, Bool.true_and, if_true]

theorem sext16_getLsbD_of_ge (v : Imm12) (k : Nat) (hk : 12 ≤ k) (hk16 : k < 16) :
    (sext16 v).getLsbD k = v.getLsbD 11 := by
  rw [sext16, BitVec.getLsbD_signExtend, BitVec.msb_eq_getLsbD_last]
  simp only [hk16, Nat.not_lt.2 hk, decide_true, Bool.true_and, if_false]

/-! ### Execute in a running cycle -/

theorem writeBack_of_not_wen (h : ex.wen = false) : writeBack rf ex = rf := by
  simp [writeBack, h]

/-- Execute's write of what Decode latches for an instruction is the instruction's effect on the registers as all older
instructions leave them, from which its operands were taken (R91). -/
theorem writeBack_decodeEntry :
    writeBack s.archRf (execute (decodeEntry i s)) = effect (.instr i) s.archRf := by
  cases i <;> simp [writeBack, decodeEntry, regOpEntry, jumpEntry, alu, effect, operand_eq_archRf]

/-! ### Fetch in a running cycle -/

theorem nextPc_of_stall (h : s.input.stall = true) : nextPc s ex = s.pc := by
  simp [nextPc, h]

theorem nextPc_of_branch (h : s.input.stall = false) (hb : ex.branchTaken = true) :
    nextPc s ex = ex.branchTarget := by
  simp [nextPc, h, hb]

theorem nextPc_of_no_branch (h : s.input.stall = false) (hb : ex.branchTaken = false) :
    nextPc s ex = s.pc + 1#16 := by
  simp [nextPc, h, hb]

theorem nextFd_of_branch (hb : ex.branchTaken = true) : nextFd s ex w = FdReg.nop s.pc := by
  simp [nextFd, hb]

theorem nextFd_of_fetch (hb : ex.branchTaken = false) (h : s.input.stall = false ∨ s.cfg.stallFetch = .refetch) :
    nextFd s ex w = { valid := true, word := w, pc := s.pc } := by
  unfold nextFd
  rcases h with h | h <;> simp [hb, h]

theorem nextFd_of_stall_bubble (hb : ex.branchTaken = false) (h : s.input.stall = true)
    (hp : s.cfg.stallFetch = .bubble) : nextFd s ex w = FdReg.nop s.pc := by
  simp [nextFd, hb, h, hp]

theorem nextFd_of_stall_hold (hb : ex.branchTaken = false) (h : s.input.stall = true)
    (hp : s.cfg.stallFetch = .hold) : nextFd s ex w = s.fd := by
  simp [nextFd, hb, h, hp]

/-! ### A step by its kind of cycle -/

/-- A cycle in which Decode raises `DecodeError` records it, whatever Fetch would do (R94, R156). -/
theorem step_of_decodeFails (hr : s.input.rst = false) (hf : s.fault = none) (hd : decodeFails s = true) :
    step s = .next (takeFault (.decodeError s.fd.word s.fd.pc) s) := by
  obtain ⟨hv, hw, hu⟩ := (decodeFails_iff s).1 hd
  simp [step, issue, hr, hf, hv, hw, Issue.ofDecoded, unrecognizedCycle, hu]

/-- A faulted core out of reset refuses with the recorded fault (R103). -/
theorem step_of_faulted (f : Fault) (hr : s.input.rst = false) (hf : s.fault = some f) :
    step s = .refused (.coreFaulted f) := by
  simp [step, issue, hr, hf]

theorem step_of_instr (hr : s.input.rst = false) (hf : s.fault = none) (hv : s.fd.valid = true)
    (hd : decode s.fd.word = .instr i) : step s = exec i s := by
  simp [step, issue, hr, hf, hv, hd, Issue.ofDecoded]

/-! ### The driver -/

theorem readRegister_toNat : readRegister r.toNat s = .ok (s.rf.read r) := by
  simp [readRegister, r.isLt]

/-- The host is answered the fault of the cycle it drives (R102). -/
theorem driverStep_of_fault (stall : Bool) (t : State) (f : Fault)
    (h : step (drive { rst := false, stall := stall } s) = .next t) (hf : t.fault = some f) :
    driverStep stall s = (t, .fault f) := by
  simp [driverStep, h, hf]

/-- The host is answered the refusal, and the core stays as it is (R103). -/
theorem driverStep_of_refused (stall : Bool) (e : Refusal)
    (h : step (drive { rst := false, stall := stall } s) = .refused e) : driverStep stall s = (s, .refused e) := by
  simp [driverStep, h]

end Sys2Proof.Machine

/-! ### Parts of the state a cycle does not read -/

namespace Sys2Proof.Machine

variable (s : State) (x y w : Word) (r : RegIdx) (i : Instr) (xs : List CycleInput)

/-- Decode reads FD, and of the rest of the state only what the decoded instruction's entry holds. -/
theorem nextDe_congr {s t : State} (hfd : t.fd = s.fd) (h : ∀ i, decodeEntry i t = decodeEntry i s) :
    nextDe t = nextDe s := by
  simp only [nextDe, hfd, h]

/-- Decode reads no input (R99). -/
theorem nextDe_withInputs : nextDe { s with inputs := xs } = nextDe s :=
  nextDe_congr rfl fun i => by cases i <;> rfl

/-- The state with other operands in Execute. -/
def State.withOperands : State :=
  { s with de := { s.de with a := x, b := y } }

/-- Where Execute writes nothing, nothing is forwarded from it (R89, R90). -/
theorem operand_withOperands (h : s.de.wen = false) : operand (s.withOperands x y) r = operand s r := by
  rw [operand_of_not_written s r (by simp [h]), operand_of_not_written _ r (by simp [State.withOperands, h])]
  rfl

theorem decodeEntry_withOperands (h : s.de.wen = false) :
    decodeEntry i (s.withOperands x y) = decodeEntry i s := by
  obtain ⟨op, rd, rs1, rs2, rfl⟩ | ⟨k, rfl⟩ := i.eq_regOp_or_eq_jump
  · simp [regOpEntry, operand_withOperands s x y _ h]
  · rfl

theorem nextDe_withOperands (h : s.de.wen = false) : nextDe (s.withOperands x y) = nextDe s :=
  nextDe_congr rfl fun i => decodeEntry_withOperands s x y i h

/-- A stalled JUMP's operands, and so its target, reach nothing (R98, R145). -/
theorem latch_withOperands_of_stall (d : DeReg) (hs : s.input.stall = true) (hw : s.de.wen = false) :
    latch d w (s.withOperands x y) = latch d w s := by
  simp only [latch, nextPc_of_stall s _ hs, nextPc_of_stall (s.withOperands x y) _ hs,
    writeBack_of_not_wen (execute s.de) _ hw, writeBack_of_not_wen (execute (s.withOperands x y).de) _ hw]
  rfl

/-! ### A placed word -/

theorem tableWord_toNat : tableWord 16 w.toNat = w := by
  rw [tableWord, Nat.mod_eq_of_lt w.isLt, BitVec.ofNat_toNat, BitVec.setWidth_eq]

/-- The state with the word `w` in memory at the pc. -/
def State.withWordAtPc : State :=
  { s with imem := s.imem.write s.pc.toNat w }

theorem read_withWordAtPc (h : s.imem.wf = true) :
    (s.withWordAtPc w).imem.read (s.withWordAtPc w).pc.toNat = w :=
  Memory.read_write_same _ _ _ h

/-- An idle cycle of an empty pipeline latches what `placeFetched` places (log entry 8). -/
theorem latch_withWordAtPc (hp : s.pc.toNat < s.cfg.imemSize) (hde : s.de = DeReg.bubble) (hin : s.inputs = []) :
    latch DeReg.bubble w (s.withWordAtPc w) = placeFetched w s := by
  have hst : (s.withWordAtPc w).input.stall = false := by
    simp [State.withWordAtPc, State.input, hin, CycleInput.idle]
  have hb : (execute (s.withWordAtPc w).de).branchTaken = false := by
    rw [State.withWordAtPc, hde]
    rfl
  have hw : (execute (s.withWordAtPc w).de).wen = false := by
    rw [State.withWordAtPc, hde]
    rfl
  simp only [latch, nextPc_of_no_branch _ _ hst hb, nextFd_of_fetch _ _ _ hb (.inl hst), writeBack_of_not_wen _ _ hw]
  simp [State.withWordAtPc, placeFetched, hp, hde, hin]

end Sys2Proof.Machine

/-! ### Undisturbed runs of the pipeline -/

namespace Sys2Proof.Machine

variable (s : State) (q : SeqState) (m : Memory)

/-- No fault can occur and the host drives neither reset nor stall, now or later: what `aligned` asks beside the pipeline's
contents. -/
structure Undisturbed (s : State) : Prop where
  fault_eq     : s.fault = none
  imemSize_eq  : s.cfg.imemSize = 65536
  policy_eq    : s.cfg.unrecognized = .nop
  inputs_idle  : ∀ x ∈ s.inputs, x = CycleInput.idle

/-- The state a cycle that runs leaves (R101). -/
def nextCycle (s : State) : State := latch (nextDe s) (s.imem.read s.pc.toNat) s

theorem step_eq_nextCycle (h : cycleRuns s = true) : step s = .next (nextCycle s) :=
  step_of_cycleRuns s h

@[simp] theorem nextCycle_imem : (nextCycle s).imem = s.imem := rfl

theorem Undisturbed.input_eq (h : Undisturbed s) : s.input = CycleInput.idle := by
  unfold State.input
  cases hi : s.inputs with
  | nil => rfl
  | cons x xs => exact h.inputs_idle x (by simp [hi])

theorem Undisturbed.not_stalled (h : Undisturbed s) : s.input.stall = false := by
  simp [h.input_eq, CycleInput.idle]

theorem Undisturbed.cycleRuns (h : Undisturbed s) : cycleRuns s = true :=
  cycleRuns_of_full_of_nop s h.imemSize_eq h.policy_eq h.fault_eq (by simp [h.input_eq, CycleInput.idle])

theorem Undisturbed.after_cycle (h : Undisturbed s) : Undisturbed (nextCycle s) :=
  ⟨h.fault_eq, h.imemSize_eq, h.policy_eq, fun x hx => h.inputs_idle x (List.mem_of_mem_tail hx)⟩

/-- An undisturbed core runs on for ever. -/
theorem Undisturbed.run_eq_iterate (h : Undisturbed s) (n : Nat) :
    Host.Core.run core n s = .next (nextCycle^[n] s) := by
  induction n generalizing s with
  | zero => rfl
  | succ n ih =>
    have hstep : core.step s = .next (nextCycle s) := step_eq_nextCycle s h.cycleRuns
    simp only [Host.Core.run, hstep]
    exact ih _ h.after_cycle

theorem nextCycle_iterate_imem (n : Nat) : (nextCycle^[n] s).imem = s.imem := by
  induction n generalizing s with
  | zero => rfl
  | succ n ih => exact ih (nextCycle s)

/-! ### What one cycle leaves of the word in Decode -/

theorem nextCycle_archRf_of_valid (hv : s.fd.valid = true) :
    (nextCycle s).archRf = effect (decode s.fd.word) s.archRf := by
  change writeBack s.archRf (execute (nextDe s)) = _
  cases hd : decode s.fd.word with
  | instr i => rw [nextDe_of_instr s i hv hd, writeBack_decodeEntry]
  | unrecognized =>
    rw [nextDe_of_unrecognized s hd]
    rfl

theorem nextCycle_archRf_of_invalid (hv : s.fd.valid = false) : (nextCycle s).archRf = s.archRf := by
  change writeBack s.archRf (execute (nextDe s)) = _
  rw [nextDe_of_invalid s hv]
  rfl

/-- Only a JUMP in Decode puts a branch in Execute. -/
theorem nextDe_isBranch_of_no_jump (h : ∀ k, decode s.fd.word ≠ .instr (.jump k)) :
    (nextDe s).isBranch = false := by
  cases hv : s.fd.valid with
  | false => rw [nextDe_of_invalid s hv]; rfl
  | true =>
    cases hd : decode s.fd.word with
    | unrecognized => rw [nextDe_of_unrecognized s hd]; rfl
    | instr i =>
      rw [nextDe_of_instr s i hv hd]
      obtain ⟨op, rd, rs1, rs2, rfl⟩ | ⟨k, rfl⟩ := i.eq_regOp_or_eq_jump
      · rw [decodeEntry_regOp]; rfl
      · exact absurd hd (h k)

/-! ### The sequential step, by what stands at the pc and in the delay slot -/

theorem seqStep_of_no_jump (h : ∀ k, decode (m.read q.pc.toNat) ≠ .instr (.jump k)) :
    seqStep m q = ({ pc := q.pc + 1#16, rf := effect (decode (m.read q.pc.toNat)) q.rf }, 1) := by
  unfold seqStep
  split
  · exact absurd ‹_› (h _)
  · rfl

theorem seqStep_of_jump (k : Imm12) (hk : decode (m.read q.pc.toNat) = .instr (.jump k))
    (h : ∀ k2, decode (m.read (q.pc + 1#16).toNat) ≠ .instr (.jump k2)) :
    seqStep m q
      = ({ pc := q.pc + sext16 k, rf := effect (decode (m.read (q.pc + 1#16).toNat)) q.rf }, 3) := by
  unfold seqStep
  rw [hk]
  dsimp only
  split
  · exact absurd ‹_› (h _)
  · rfl

theorem seqStep_of_jump_jump (k k2 : Imm12) (hk : decode (m.read q.pc.toNat) = .instr (.jump k))
    (hk2 : decode (m.read (q.pc + 1#16).toNat) = .instr (.jump k2)) :
    seqStep m q = ({ pc := q.pc + 1#16 + sext16 k2, rf := q.rf }, 4) := by
  simp only [seqStep, hk, hk2]

/-! ### The boundaries and the states between two of them -/

theorem aligned_iff :
    aligned s q ↔ Undisturbed s ∧ s.fd = { valid := true, word := s.imem.read q.pc.toNat, pc := q.pc }
      ∧ s.pc = q.pc + 1#16 ∧ s.de.isBranch = false ∧ s.archRf = q.rf := by
  constructor
  · rintro ⟨hf, hsize, hnop, hfd, hpc, hb, hrf, hin⟩
    exact ⟨⟨hf, hsize, hnop, hin⟩, hfd, hpc, hb, hrf⟩
  · rintro ⟨⟨hf, hsize, hnop, hin⟩, hfd, hpc, hb, hrf⟩
    exact ⟨hf, hsize, hnop, hfd, hpc, hb, hrf, hin⟩

/-- A JUMP to `q.pc` is in Execute and its delay slot, or the marker a JUMP before it left there, in Decode; all older
results make up `q.rf`. -/
structure Branching (s : State) (q : SeqState) : Prop where
  undisturbed : Undisturbed s
  isBranch    : s.de.isBranch = true
  target      : alu s.de.op s.de.a s.de.b = q.pc
  archRf      : s.archRf = q.rf

/-- A JUMP has sent the pc to `q.pc` and squashed the word after its slot; the word at `q.pc` is yet to be fetched. -/
structure Transferred (s : State) (q : SeqState) : Prop where
  undisturbed : Undisturbed s
  squashed    : s.fd.valid = false
  pc_eq       : s.pc = q.pc
  no_branch   : s.de.isBranch = false
  archRf      : s.archRf = q.rf

variable {s q}

/-- With no branch in Execute a cycle fetches the word at the pc. -/
theorem aligned_nextCycle (hu : Undisturbed s) (hb : s.de.isBranch = false) (hpc : s.pc = q.pc)
    (hb' : (nextDe s).isBranch = false) (hrf : (nextCycle s).archRf = q.rf) : aligned (nextCycle s) q := by
  refine (aligned_iff _ q).2 ⟨hu.after_cycle, ?_, ?_, hb', hrf⟩
  · rw [← hpc]
    exact nextFd_of_fetch s _ _ hb (.inl hu.not_stalled)
  · rw [← hpc]
    exact nextPc_of_no_branch s _ hu.not_stalled hb

theorem Transferred.aligned (h : Transferred s q) : aligned (nextCycle s) q :=
  aligned_nextCycle h.undisturbed h.no_branch h.pc_eq (by rw [nextDe_of_invalid s h.squashed]; rfl)
    ((nextCycle_archRf_of_invalid s h.squashed).trans h.archRf)

/-- The cycle that executes a JUMP squashes the word it fetches (R143). -/
theorem Branching.squashed (h : Branching s q) : (nextCycle s).fd.valid = false :=
  congrArg FdReg.valid (nextFd_of_branch s (execute s.de) _ h.isBranch)

/-- With no JUMP in Decode behind it, a JUMP in Execute transfers control, and what is in Decode takes effect (R142). -/
theorem Branching.transferred (h : Branching s q) (hj : (nextDe s).isBranch = false) :
    Transferred (nextCycle s) { q with rf := (nextCycle s).archRf } :=
  ⟨h.undisturbed.after_cycle, h.squashed,
    (nextPc_of_branch s _ h.undisturbed.not_stalled h.isBranch).trans h.target, hj, rfl⟩

/-- A JUMP in Decode is a branch in Execute a cycle later, to its offset from its own fetch-time pc (R141). -/
theorem branching_nextCycle (hu : Undisturbed s) (hv : s.fd.valid = true) (k : Imm12)
    (hk : decode s.fd.word = .instr (.jump k)) :
    Branching (nextCycle s) { pc := s.fd.pc + sext16 k, rf := s.archRf } := by
  have hde : (nextCycle s).de = jumpEntry k s := nextDe_of_instr s (.jump k) hv hk
  refine ⟨hu.after_cycle, by rw [hde]; rfl, by rw [hde]; rfl, ?_⟩
  rw [nextCycle_archRf_of_valid s hv, hk, effect]

/-! ### One sequential step, in its three shapes -/

/-- From a boundary, the word after the one in Decode is fetched. -/
theorem nextCycle_fd_of_aligned (h : aligned s q) :
    (nextCycle s).fd = { valid := true, word := s.imem.read (q.pc + 1#16).toNat, pc := q.pc + 1#16 } := by
  obtain ⟨hu, -, hpc, hb, -⟩ := (aligned_iff s q).1 h
  rw [← hpc]
  exact nextFd_of_fetch s _ _ hb (.inl hu.not_stalled)

/-- A word that is no JUMP takes one cycle. -/
theorem aligned_after_no_jump (h : aligned s q) (hj : ∀ k, decode (s.imem.read q.pc.toNat) ≠ .instr (.jump k)) :
    aligned (nextCycle s) { pc := q.pc + 1#16, rf := effect (decode (s.imem.read q.pc.toNat)) q.rf } := by
  obtain ⟨hu, hfd, hpc, hb, hrf⟩ := (aligned_iff s q).1 h
  refine aligned_nextCycle hu hb hpc (nextDe_isBranch_of_no_jump s (by rwa [hfd])) ?_
  rw [nextCycle_archRf_of_valid s (by rw [hfd]), hfd, hrf]

/-- A JUMP at the boundary is in Execute a cycle later. -/
theorem branching_of_aligned (h : aligned s q) (k : Imm12)
    (hk : decode (s.imem.read q.pc.toNat) = .instr (.jump k)) :
    Branching (nextCycle s) { q with pc := q.pc + sext16 k } := by
  obtain ⟨hu, hfd, -, -, hrf⟩ := (aligned_iff s q).1 h
  have hbr := branching_nextCycle hu (by rw [hfd]) k (by rw [hfd]; exact hk)
  rwa [hfd, hrf] at hbr

/-- A JUMP and a slot that is no JUMP take three cycles (R142, R183). -/
theorem aligned_after_jump (h : aligned s q) (k : Imm12) (hk : decode (s.imem.read q.pc.toNat) = .instr (.jump k))
    (hslot : ∀ k2, decode (s.imem.read (q.pc + 1#16).toNat) ≠ .instr (.jump k2)) :
    aligned (nextCycle^[3] s)
      { pc := q.pc + sext16 k, rf := effect (decode (s.imem.read (q.pc + 1#16).toNat)) q.rf } := by
  have hfd := nextCycle_fd_of_aligned h
  have hbr := branching_of_aligned h k hk
  have htr := hbr.transferred (nextDe_isBranch_of_no_jump _ (by rwa [hfd]))
  rw [nextCycle_archRf_of_valid _ (by rw [hfd]), hfd, hbr.archRf] at htr
  exact htr.aligned

/-- A JUMP with a JUMP in its slot takes four cycles, and the second decides (R144). -/
theorem aligned_after_jump_jump (h : aligned s q) (k k2 : Imm12)
    (hk : decode (s.imem.read q.pc.toNat) = .instr (.jump k))
    (hk2 : decode (s.imem.read (q.pc + 1#16).toNat) = .instr (.jump k2)) :
    aligned (nextCycle^[4] s) { q with pc := q.pc + 1#16 + sext16 k2 } := by
  have hfd := nextCycle_fd_of_aligned h
  have hbr := branching_of_aligned h k hk
  have hbr2 := branching_nextCycle hbr.undisturbed (by rw [hfd]) k2 (by rw [hfd]; exact hk2)
  have htr := hbr2.transferred (by rw [nextDe_of_invalid _ hbr.squashed]; rfl)
  rw [nextCycle_archRf_of_invalid _ hbr.squashed, hbr2.archRf, hfd, hbr.archRf] at htr
  exact htr.aligned

/-- The clock cycles of one sequential step lead from boundary to boundary. -/
theorem aligned_seqStep (h : aligned s q) :
    aligned (nextCycle^[(seqStep s.imem q).2] s) (seqStep s.imem q).1 := by
  by_cases hj : ∃ k, decode (s.imem.read q.pc.toNat) = .instr (.jump k)
  · obtain ⟨k, hk⟩ := hj
    by_cases hslot : ∃ k2, decode (s.imem.read (q.pc + 1#16).toNat) = .instr (.jump k2)
    · obtain ⟨k2, hk2⟩ := hslot
      rw [seqStep_of_jump_jump q _ k k2 hk hk2]
      exact aligned_after_jump_jump h k k2 hk hk2
    · rw [seqStep_of_jump q _ k hk (not_exists.1 hslot)]
      exact aligned_after_jump h k hk (not_exists.1 hslot)
  · rw [seqStep_of_no_jump q _ (not_exists.1 hj)]
    exact aligned_after_no_jump h (not_exists.1 hj)

theorem aligned_seqRun (n : Nat) (h : aligned s q) :
    aligned (nextCycle^[(seqRun s.imem n q).2] s) (seqRun s.imem n q).1 := by
  induction n generalizing s q with
  | zero => exact h
  | succ n ih =>
    have hrest := ih (aligned_seqStep h)
    rw [nextCycle_iterate_imem, ← Function.iterate_add_apply, Nat.add_comm] at hrest
    exact hrest

end Sys2Proof.Machine

/-! ### The obligations on the pipeline -/

namespace Sys2Proof.Machine

/-- Settles O49: an undisturbed core runs on, and the cycles of each sequential step lead from boundary to boundary. -/
theorem pipelineRefinesSequentialMachine : Obligations.PipelineRefinesSequentialMachine := by
  intro n s q h
  obtain ⟨hu, -⟩ := (aligned_iff s q).1 h
  exact ⟨_, hu.run_eq_iterate s _, aligned_seqRun n h, nextCycle_iterate_imem s _⟩

/-- Settles O6: with a bubble in Execute and no input pending, the cycle that fetches the word latches just what
`placeFetched` places, and FD then holds the word `i` encodes to. -/
theorem placedWordIsWhatFetchLeaves : Obligations.PlacedWordIsWhatFetchLeaves := by
  intro s i hf hp hwf hv hde hin
  have hr : s.input.rst = false := by simp [State.input, hin, CycleInput.idle]
  rw [State.withFetchWord, tableWord_toNat]
  refine ⟨?_, step_of_instr _ i hr hf rfl (decode_encode i)⟩
  change step (s.withWordAtPc (encode i)) = _
  have hruns := (cycleRuns_iff (s.withWordAtPc (encode i))).2 ⟨hr, hf, decodeFails_of_invalid _ hv, hp⟩
  rw [step_of_cycleRuns _ hruns, nextDe_of_invalid (s.withWordAtPc _) hv, read_withWordAtPc s _ hwf,
    latch_withWordAtPc s _ hp hde hin]

/-- Settles O13: this cycle and the next latch; the first one's registers are those older instructions leave, the
second one's add the write of the entry the first one latched. -/
theorem issuedEffectCommitsNextCycle : Obligations.IssuedEffectCommitsNextCycle := by
  intro s i hsize hnop hf hr hr' hv hd
  refine ⟨nextCycle s, nextCycle (nextCycle s), step_eq_nextCycle s (cycleRuns_of_full_of_nop s hsize hnop hf hr),
    step_eq_nextCycle _ (cycleRuns_of_full_of_nop (nextCycle s) hsize hnop hf hr'), rfl, ?_⟩
  rw [← hd]
  exact nextCycle_archRf_of_valid s hv

/-- Settles O18: the entry latched holds `operand s rs1` and `operand s rs2`, and for a JUMP its pc and immediate. -/
theorem operandsAreForwarded : Obligations.OperandsAreForwarded := by
  refine ⟨fun op rd rs1 rs2 s hp => ?_, fun k s hp => ?_⟩
  · rw [exec_eq_finishCycle, decodeEntry_regOp, finishCycle_of_lt _ s hp]
    exact ⟨_, rfl, operand_of_written s rs1, operand_of_not_written s rs1, operand_of_written s rs2,
      operand_of_not_written s rs2⟩
  · rw [exec_eq_finishCycle, finishCycle_of_lt _ s hp]
    exact ⟨_, rfl, rfl, sext16_getLsbD_of_lt k, sext16_getLsbD_of_ge k⟩

/-- Settles O19: the register file a latching cycle leaves is Execute's write-back. -/
theorem executeWritesOneRegister : Obligations.ExecuteWritesOneRegister := fun s hs =>
  ⟨_, step_of_cycleRuns s hs,
    fun hw => ⟨writeBack_read_same s.rf (execute s.de) hw, fun r hr => writeBack_read_other s.rf _ r fun _ => hr⟩,
    writeBack_of_not_wen (execute s.de) s.rf⟩

/-- Settles O21: the next pc by its three cases; a stalled JUMP's operands reach neither the pc nor FD, and, as it writes
nothing, neither the registers nor a forwarded operand. -/
theorem nextPcPriority : Obligations.NextPcPriority := by
  intro s hs
  refine ⟨_, step_of_cycleRuns s hs, nextPc_of_stall s _, nextPc_of_branch s (execute s.de), fun hst hb => ?_,
    fun hst hb hw => ⟨nextFd_of_branch s (execute s.de) _ hb, fun x y => ?_⟩⟩
  · rw [latch_pc, nextPc_of_no_branch s _ hst hb]
    simp
  · change step (s.withOperands x y) = _
    rw [step_of_cycleRuns (s.withOperands x y) hs, nextDe_withOperands s x y hw,
      latch_withOperands_of_stall s x y _ _ hst hw]
    rfl

/-- Settles O22, by the cases of what FD latches. -/
theorem fetchRegisterLatch : Obligations.FetchRegisterLatch := fun s hs =>
  ⟨_, step_of_cycleRuns s hs, nextFd_of_branch s (execute s.de) _, nextFd_of_fetch s (execute s.de) _,
    nextFd_of_stall_bubble s (execute s.de) _, nextFd_of_stall_hold s (execute s.de) _⟩

/-- Settles O23: Decode of the squash marker raises nothing and makes a bubble. -/
theorem squashMarkerIssuesBubble : Obligations.SquashMarkerIssuesBubble := fun s hr hf hv hp =>
  ⟨_, step_of_cycleRuns s ((cycleRuns_iff s).2 ⟨hr, hf, decodeFails_of_invalid s hv, hp⟩), hf,
    nextDe_of_invalid s hv⟩

/-- Settles O24: under `nop` the cycle latches a bubble, under `fault` Decode raises the error; and of all ways a step
can end only a cycle in which Decode fails records one. -/
theorem unassignedOpcodeFollowsPolicy : Obligations.UnassignedOpcodeFollowsPolicy := by
  intro s hr hf
  refine ⟨fun hv hd => ⟨fun hnop hp => ?_, fun hfault => ?_⟩, fun hv t w p h => ?_⟩
  · exact ⟨_, step_of_cycleRuns s ((cycleRuns_iff s).2 ⟨hr, hf, decodeFails_of_nop s hnop, hp⟩), hf,
      nextDe_of_unrecognized s hd⟩
  · exact ⟨_, step_of_decodeFails s hr hf ((decodeFails_iff s).2 ⟨hv, hd, hfault⟩), rfl⟩
  · rcases step_next_cases s t h with
      ⟨-, rfl⟩ | ⟨-, -, hd, -⟩ | ⟨-, -, -, -, rfl⟩ | ⟨-, -, -, -, d, rfl, -⟩
    · simp
    · simp [decodeFails_of_invalid s hv] at hd
    · simp
    · simp [hf]

/-- Settles O29: FD by the three policies; Execute and Decode read no input; and the next cycle fetches at the pc held. -/
theorem stallLatchesByPolicy : Obligations.StallLatchesByPolicy := by
  intro s hs hst hb
  obtain ⟨-, hf, hd, hp⟩ := (cycleRuns_iff s).1 hs
  have hpc : (nextCycle s).pc = s.pc := nextPc_of_stall s _ hst
  refine ⟨nextCycle s, step_eq_nextCycle s hs, hpc, fun h => nextFd_of_fetch s (execute s.de) _ hb (.inr h),
    nextFd_of_stall_bubble s (execute s.de) _ hb hst, nextFd_of_stall_hold s (execute s.de) _ hb hst, ?_,
    fun ht hst' hb' => ⟨_, step_of_cycleRuns _ ht, ?_⟩⟩
  · exact ⟨_, step_of_cycleRuns _ ((cycleRuns_iff _).2 ⟨rfl, hf, hd, hp⟩), rfl,
      (nextDe_withInputs s _).symm⟩
  · rw [latch_fd, nextFd_of_fetch _ _ _ hb' (.inl hst'), hpc, nextCycle_imem]

/-- Settles O34: of all ways a step can end, a reset edge and a latch leave no fault recorded. -/
theorem faultingCycleLatchesNothing : Obligations.FaultingCycleLatchesNothing := by
  refine ⟨fun s t stall f => driverStep_of_fault s stall t f, fun s t f h hf => ?_⟩
  rcases step_next_cases s t h with
    ⟨-, rfl⟩ | ⟨-, hnone, hd, rfl⟩ | ⟨-, hnone, -, hp, rfl⟩ | ⟨-, hnone, -, -, d, rfl, -⟩
  · cases hf
  · cases hf
    exact ⟨hnone, rfl, rfl, rfl, rfl, rfl, rfl, .inl ⟨rfl, (decodeFails_iff s).1 hd⟩⟩
  · cases hf
    exact ⟨hnone, rfl, rfl, rfl, rfl, rfl, rfl, .inr ⟨rfl, hp⟩⟩
  · simp [hnone] at hf

/-- Settles O35: out of reset a faulted core's step is refused, and a reset edge clears the mark. -/
theorem faultedCoreRefusesUntilReset : Obligations.FaultedCoreRefusesUntilReset := fun s f hf =>
  ⟨fun hr => step_of_faulted s f hr hf,
    fun stall => driverStep_of_refused s stall _ (step_of_faulted (drive _ s) f rfl hf),
    readRegister_toNat s, rfl, fun hr => ⟨_, step_of_rst s hr, rfl⟩⟩

/-- Settles O5, by the kinds of clock cycle. -/
theorem stepRunsDecodedInstruction : Obligations.StepRunsDecodedInstruction := step_of_instr

/-- Settles O43: the driven cycle is the shared one, its fetch faults, and taking the fault consumes the input driven. -/
theorem driverStepReturnsTheFault : Obligations.DriverStepReturnsTheFault := by
  intro s stall hf hd hp
  refine driverStep_of_fault s stall _ _ ?_ rfl
  rw [step_eq_finishCycle (drive _ s) rfl hf hd, finishCycle_of_ge _ (drive _ s) hp]
  rfl

end Sys2Proof.Machine

/-! ### The result of a register instruction, written by the cycle after it -/

namespace Sys2Proof.Machine

variable (s : State) (op : AluOp) (rd rs1 rs2 r : RegIdx) (rf : RegFile)

/-- Writing a register's own value back changes nothing. -/
@[simp] theorem RegFile.write_read_self : rf.write r (rf.read r) = rf := by
  simp [RegFile.read, RegFile.write]

theorem encode_regOp_toNat :
    (encode (regOp op rd rs1 rs2)).toNat = 4096 * op.code.toNat + 256 * rd.toNat + 16 * rs1.toNat + rs2.toNat := by
  rw [encode_regOp, encodeR_toNat]

/-- With a word at the pc, a register instruction's cycle latches its entry (R92, R101). -/
theorem exec_regOp_of_lt (hp : s.pc.toNat < s.cfg.imemSize) :
    exec (regOp op rd rs1 rs2) s = .next (latch (regOpEntry op rd rs1 rs2 s) (s.imem.read s.pc.toNat) s) := by
  rw [exec_eq_finishCycle, decodeEntry_regOp, finishCycle_of_lt _ s hp]

/-- A running cycle with a register instruction's entry in Execute leaves the ALU's result in its destination (R85,
R86). -/
theorem step_read_of_regOpEntry (t : State) (hde : t.de = regOpEntry op rd rs1 rs2 s) (ht : cycleRuns t = true) :
    ∃ u, step t = .next u ∧ u.rf.read rd = alu op (operand s rs1) (operand s rs2) := by
  refine ⟨_, step_of_cycleRuns t ht, ?_⟩
  rw [latch_rf, hde]
  exact writeBack_read_same t.rf (execute (regOpEntry op rd rs1 rs2 s)) rfl

/-- A register instruction in full, as its statements spell it out (R92, R121 to R125): its word, its DE entry, which
takes no branch, and the property `P` that the next cycle's result in `rd` has because the ALU's result has it. -/
theorem regOp_encodes_and_completes (P : Word → Prop) (hp : s.pc.toNat < s.cfg.imemSize)
    (hP : P (alu op (operand s rs1) (operand s rs2))) :
    (encode (regOp op rd rs1 rs2)).toNat = 4096 * op.code.toNat + 256 * rd.toNat + 16 * rs1.toNat + rs2.toNat
    ∧ ∃ t, exec (regOp op rd rs1 rs2) s = .next t ∧ t.de = regOpEntry op rd rs1 rs2 s ∧ t.fault = s.fault
      ∧ (execute t.de).branchTaken = false
      ∧ (cycleRuns t = true → ∃ u, step t = .next u ∧ P (u.rf.read rd)) := by
  refine ⟨encode_regOp_toNat op rd rs1 rs2, _, exec_regOp_of_lt s op rd rs1 rs2 hp, rfl, rfl, rfl, fun ht => ?_⟩
  obtain ⟨u, hu, hread⟩ := step_read_of_regOpEntry s op rd rs1 rs2 _ rfl ht
  exact ⟨u, hu, hread ▸ hP⟩

/-- With its own write performed, an instruction has its effect on the registers as all older instructions leave them
(R86, R91). -/
theorem exec_archRf (i : Instr) (hp : s.pc.toNat < s.cfg.imemSize) :
    ∃ t, exec i s = .next t ∧ t.archRf = effect (.instr i) s.archRf := by
  rw [exec_eq_finishCycle, finishCycle_of_lt _ s hp]
  exact ⟨_, rfl, writeBack_decodeEntry s i⟩

/-- Subtraction modulo 2^16, without a negative difference (R12). -/
theorem alu_sub_toNat (x y : Word) : (alu .sub x y).toNat = (x.toNat + 65536 - y.toNat) % 65536 := by
  have hy := y.isLt
  simp only [alu, BitVec.toNat_sub]
  omega

end Sys2Proof.Machine

/-! ### The obligations on the register instructions -/

namespace Sys2Proof.Machine

/-- Settles O7: the sum of two words is their sum modulo 2^16. -/
theorem addSumsItsOperands : Obligations.AddSumsItsOperands :=
  ⟨rfl, fun s rd rs1 rs2 hp =>
    regOp_encodes_and_completes s .add rd rs1 rs2
      (fun v => v.toNat = ((operand s rs1).toNat + (operand s rs2).toNat) % 65536) hp (BitVec.toNat_add ..)⟩

/-- Settles O8: the difference of two words is taken modulo 2^16, operand 2 from operand 1. -/
theorem subTakesSecondOperandFromFirst : Obligations.SubTakesSecondOperandFromFirst :=
  ⟨rfl, fun s rd rs1 rs2 hp =>
    regOp_encodes_and_completes s .sub rd rs1 rs2
      (fun v => v.toNat = ((operand s rs1).toNat + 65536 - (operand s rs2).toNat) % 65536) hp (alu_sub_toNat ..)⟩

/-- Settles O9: bit `k` of the result is the exclusive or of the operands' bits `k`. -/
theorem xorDiffersBitByBit : Obligations.XorDiffersBitByBit :=
  ⟨rfl, fun s rd rs1 rs2 hp =>
    regOp_encodes_and_completes s .xor rd rs1 rs2
      (fun v => ∀ k, v.getLsbD k = ((operand s rs1).getLsbD k != (operand s rs2).getLsbD k)) hp
      fun _ => BitVec.getLsbD_xor⟩

/-- Settles O10: bit `k` of the result is the conjunction of the operands' bits `k`. -/
theorem andMeetsBitByBit : Obligations.AndMeetsBitByBit :=
  ⟨rfl, fun s rd rs1 rs2 hp =>
    regOp_encodes_and_completes s .and rd rs1 rs2
      (fun v => ∀ k, v.getLsbD k = ((operand s rs1).getLsbD k && (operand s rs2).getLsbD k)) hp
      fun _ => BitVec.getLsbD_and⟩

/-- Settles O11: bit `k` of the result is the disjunction of the operands' bits `k`. -/
theorem orJoinsBitByBit : Obligations.OrJoinsBitByBit :=
  ⟨rfl, fun s rd rs1 rs2 hp =>
    regOp_encodes_and_completes s .or rd rs1 rs2
      (fun v => ∀ k, v.getLsbD k = ((operand s rs1).getLsbD k || (operand s rs2).getLsbD k)) hp
      fun _ => BitVec.getLsbD_or⟩

/-- Settles O14: the AND and the OR of a value with itself are that value, so the register gets back what it held. -/
theorem idleInstructionsKeepRegisters : Obligations.IdleInstructionsKeepRegisters := by
  refine fun s r hp => ⟨?_, ?_⟩
  · simpa [effect] using exec_archRf s (.and r r r) hp
  · simpa [effect] using exec_archRf s (.or r r r) hp

/-- Settles O15: a value less itself, and its exclusive or with itself, are zero. -/
theorem subAndXorOfOneRegisterMakeZero : Obligations.SubAndXorOfOneRegisterMakeZero := by
  refine fun s rd r hp => ⟨?_, ?_⟩
  · obtain ⟨t, ht, harch⟩ := exec_archRf s (.sub rd r r) hp
    exact ⟨t, ht, by simp [harch, effect]⟩
  · obtain ⟨t, ht, harch⟩ := exec_archRf s (.xor rd r r) hp
    exact ⟨t, ht, by simp [harch, effect]⟩

end Sys2Proof.Machine

/-! ### A cycle with a JUMP in Execute -/

namespace Sys2Proof.Machine

variable (s t : State) (k : Imm12)

/-- Sign extension keeps the signed value of the offset (R13). -/
theorem sext16_toInt : (sext16 k).toInt = k.toInt :=
  BitVec.toInt_signExtend_of_le (by decide)

/-- An address moved by a JUMP's offset is the sum modulo 2^16 (R12, R141). -/
theorem add_sext16_toNat (p : Word) : ((p + sext16 k).toNat : Int) = (p.toNat + k.toInt) % 65536 := by
  have hk := BitVec.toInt_eq_toNat_cond (sext16 k)
  rw [sext16_toInt] at hk
  rw [BitVec.toNat_add, hk]
  split <;> omega

/-- A running cycle with an instruction in Decode is that instruction's cycle (R88, R101). -/
theorem step_eq_exec_of_cycleRuns (i : Instr) (hs : cycleRuns s = true) (hv : s.fd.valid = true)
    (hd : decode s.fd.word = .instr i) : step s = exec i s := by
  obtain ⟨hr, hf, -, -⟩ := (cycleRuns_iff s).1 hs
  exact step_of_instr s i hr hf hv hd

/-- An entry that writes no register leaves the register file as it is (R86). -/
theorem nextCycle_rf_of_not_wen (hw : s.de.wen = false) : (nextCycle s).rf = s.rf :=
  writeBack_of_not_wen (execute s.de) s.rf hw

/-- The word fetched while a JUMP executes is squashed (R143). -/
theorem nextCycle_fd_of_isBranch (hb : s.de.isBranch = true) : (nextCycle s).fd = FdReg.nop s.pc :=
  nextFd_of_branch s (execute s.de) _ hb

/-- With no branch in Execute, an unstalled cycle fetches the word at the pc (R97). -/
theorem nextCycle_fd_of_not_isBranch (hst : s.input.stall = false) (hb : s.de.isBranch = false) :
    (nextCycle s).fd = { valid := true, word := s.imem.read s.pc.toNat, pc := s.pc } :=
  nextFd_of_fetch s (execute s.de) _ hb (.inl hst)

/-- Unstalled, a JUMP's own entry in Execute sends the pc to its fetch-time pc plus its offset (R140, R141). -/
theorem nextCycle_pc_of_jumpEntry (hde : t.de = jumpEntry k s) (hst : t.input.stall = false) :
    ((nextCycle t).pc.toNat : Int) = (s.fd.pc.toNat + k.toInt) % 65536 := by
  have hpc : (nextCycle t).pc = s.fd.pc + sext16 k := by
    rw [nextCycle, latch_pc, hde]
    exact nextPc_of_branch t _ hst rfl
  rw [hpc, add_sext16_toNat]

end Sys2Proof.Machine

/-! ### The obligations on JUMP -/

namespace Sys2Proof.Machine

/-- Settles O12: the cycle latches `jumpEntry`, which writes nothing, and the cycle after takes the branch. -/
theorem jumpReachesItsTarget : Obligations.JumpReachesItsTarget := by
  refine ⟨rfl, fun s k hp => ⟨encodeJ_toNat 0x6#4 k, ?_⟩⟩
  rw [exec_eq_finishCycle, finishCycle_of_lt _ s hp]
  refine ⟨_, rfl, rfl, rfl, sext16_toInt k, rfl, rfl, rfl, rfl, fun ht => ?_⟩
  exact ⟨_, step_eq_nextCycle _ ht,
    fun i hv hd => (step_eq_exec_of_cycleRuns _ i ht hv hd).symm.trans (step_eq_nextCycle _ ht),
    nextCycle_rf_of_not_wen _ rfl, nextCycle_fd_of_isBranch _ rfl, nextPc_of_stall _ _,
    nextCycle_pc_of_jumpEntry s _ k rfl⟩

/-- Settles O26: the cycle is the slot's own; it squashes FD, and the squash marker issues a bubble. -/
theorem delaySlotRunsAndNextIsSquashed : Obligations.DelaySlotRunsAndNextIsSquashed := by
  intro s i hs hb hv hd
  obtain ⟨-, hf, -, -⟩ := (cycleRuns_iff s).1 hs
  have hsquash : (nextCycle s).fd.valid = false := congrArg FdReg.valid (nextCycle_fd_of_isBranch s hb)
  exact ⟨nextCycle s, step_eq_nextCycle s hs, step_eq_exec_of_cycleRuns s i hs hv hd, hf, hsquash,
    fun ht => ⟨_, step_eq_nextCycle _ ht, nextDe_of_invalid _ hsquash⟩⟩

/-- Settles O27: the first JUMP's cycle puts the second in Execute behind a squashed FD, so the cycle after decodes
nothing, squashes the first target's word, and takes the second branch. -/
theorem jumpInDelaySlotSuppressesFirstTarget : Obligations.JumpInDelaySlotSuppressesFirstTarget := by
  intro s k2 hs hb hv hd hst
  have hde : (nextCycle s).de = jumpEntry k2 s := nextDe_of_instr s (.jump k2) hv hd
  have hsquash : (nextCycle s).fd.valid = false := congrArg FdReg.valid (nextCycle_fd_of_isBranch s hb)
  refine ⟨nextCycle s, step_eq_nextCycle s hs, nextPc_of_branch s _ hst hb, hsquash, fun ht hst' => ?_⟩
  refine ⟨_, step_eq_nextCycle _ ht, ?_, ?_, nextCycle_pc_of_jumpEntry s _ k2 hde hst'⟩
  · rw [nextCycle_fd_of_isBranch _ (by rw [hde]; rfl)]
    rfl
  · exact congrArg DeReg.isBranch (nextDe_of_invalid _ hsquash)

/-- Settles O28: the stall holds the pc against the branch, and the next cycle fetches there and moves on by one. -/
theorem stalledJumpIsLost : Obligations.StalledJumpIsLost := by
  intro s hs hb hst
  have hpc : (nextCycle s).pc = s.pc := nextPc_of_stall s _ hst
  refine ⟨nextCycle s, step_eq_nextCycle s hs, hpc, nextCycle_fd_of_isBranch s hb, fun ht hst' hb' => ?_⟩
  refine ⟨_, step_eq_nextCycle _ ht, ?_, ?_⟩
  · rw [← hpc]
    exact nextPc_of_no_branch _ _ hst' hb'
  · rw [nextCycle_fd_of_not_isBranch _ hst' hb', hpc, nextCycle_imem]

end Sys2Proof.Machine

/-! ### A stalled cycle beside the unstalled one, and what the host reads -/

namespace Sys2Proof.Machine

variable (s : State) (x : CycleInput)

/-- Decode reads no input driven on the core (R99). -/
theorem nextDe_drive : nextDe (drive x s) = nextDe s := nextDe_withInputs s _

/-- A cycle in which only Fetch raises a fault records it (R95). -/
theorem step_of_fetchFails (hr : s.input.rst = false) (hf : s.fault = none) (hd : decodeFails s = false)
    (hp : s.cfg.imemSize ≤ s.pc.toNat) : step s = .next (takeFault (.outOfRangeFetch s.pc) s) :=
  (step_eq_finishCycle s hr hf hd).trans (finishCycle_of_ge _ s hp)

/-- The fault port shows no code while no fault is recorded (R80). -/
theorem faultCode_of_none (h : s.fault = none) : faultCode s = 0#2 := by
  simp [faultCode, h]

/-- The fault port shows the code of the fault recorded (R80, R151). -/
theorem faultCode_of_some (f : Fault) (h : s.fault = some f) : faultCode s = f.code := by
  simp [faultCode, h]

/-- The host is answered the index error past the last register (R155). -/
theorem readRegister_of_gt (i : Nat) (h : 15 < i) :
    readRegister i s = .error (.registerIndexOutOfRange i) :=
  if_neg (by omega)

end Sys2Proof.Machine

/-! ### The obligations on stalls, fault codes and the host's reads -/

namespace Sys2Proof.Machine

/-- Settles O30: which way a driven cycle ends, a fault of Decode, a fault of Fetch or a latch, does not depend on
`stall`; and of what a latch sets, only the next pc and FD do. -/
theorem stallTouchesOnlyPcAndFd : Obligations.StallTouchesOnlyPcAndFd := by
  intro s t h
  rcases step_next_cases _ t h with ⟨hr, -⟩ | ⟨-, hf, hd, rfl⟩ | ⟨-, hf, hd, hp, rfl⟩ | ⟨-, hf, hd, hp, -⟩
  · cases hr
  · exact ⟨_, step_of_decodeFails (drive _ s) rfl hf hd, rfl, rfl, rfl, rfl, rfl, rfl⟩
  · exact ⟨_, step_of_fetchFails (drive _ s) rfl hf hd hp, rfl, rfl, rfl, rfl, rfl, rfl⟩
  · rw [step_eq_nextCycle _ ((cycleRuns_iff _).2 ⟨rfl, hf, hd, hp⟩)] at h
    cases h
    exact ⟨_, step_eq_nextCycle (drive _ s) ((cycleRuns_iff _).2 ⟨rfl, hf, hd, hp⟩), rfl,
      (nextDe_drive s _).trans (nextDe_drive s _).symm, rfl, rfl, rfl, rfl⟩

/-- Settles O33: Decode's fault ends the cycle whatever Fetch would do. -/
theorem decodeErrorComesFirst : Obligations.DecodeErrorComesFirst := fun s hr hf hd _ =>
  ⟨_, step_of_decodeFails s hr hf hd, takeFault_fault _ s⟩

/-- Settles O36: the port shows the recorded fault's code, and the codes are the table's. -/
theorem faultCodesAsTabled : Obligations.FaultCodesAsTabled := fun s _ _ _ =>
  ⟨faultCode_of_none s, faultCode_of_some s _, faultCode_of_some s _, rfl, rfl⟩

/-- Settles O42, by the two sides of the index bound. -/
theorem readRegisterAnswers : Obligations.ReadRegisterAnswers := fun s =>
  ⟨readRegister_toNat s, readRegister_of_gt s⟩

end Sys2Proof.Machine

/-! ### The reset edge, the boot, and what a step leaves in the registers and in DE -/

namespace Sys2Proof.Machine

variable (s t : State) (cfg : Config) (rf : RegFile) (words : List Word)

/-- A second reset edge only consumes its input (R170). -/
theorem resetCycle_resetCycle :
    resetCycle (resetCycle s) = { resetCycle s with inputs := (resetCycle s).inputs.tail } := rfl

/-- Booting a program that fits gives the reset state with the launch parameters and the program in place (R174). -/
theorem boot_of_le (h : words.length ≤ cfg.imemSize) :
    boot cfg rf words = .ok { State.reset with cfg := cfg, rf := rf, imem := Memory.ofWords 0 words } := by
  rw [boot,
    loadProgram_of_le (drive { rst := true, stall := false } { State.reset with cfg := cfg, rf := rf }) words rfl h]
  rfl

/-- A step keeps the register file or performs Execute's write (R86, R102, R170). -/
theorem step_rf_cases (h : step s = .next t) : t.rf = s.rf ∨ t.rf = s.archRf := by
  rcases step_next_reset_or_fault_or_latch s t h with rfl | ⟨f, -, rfl⟩ | ⟨-, -, d, -, rfl⟩
  · exact .inl rfl
  · exact .inl rfl
  · exact .inr rfl

theorem step_rf_of_not_wen (hw : s.de.wen = false) (h : step s = .next t) : t.rf = s.rf :=
  (step_rf_cases s t h).elim id fun hrf => hrf.trans (writeBack_of_not_wen (execute s.de) s.rf hw)

/-- A step leaves BUBBLE in DE, or keeps DE, or latches there what Decode makes of the instruction in FD (R87, R92 to
R94, R102, R170). -/
theorem step_de_cases (h : step s = .next t) :
    t.de = DeReg.bubble ∨ t.de = s.de ∨ (s.fd.valid = true ∧ ∃ i, t.de = decodeEntry i s) := by
  rcases step_next_cases s t h with
    ⟨-, rfl⟩ | ⟨-, -, -, rfl⟩ | ⟨-, -, -, -, rfl⟩ | ⟨-, -, -, -, d, rfl, hd⟩
  · exact .inl rfl
  · exact .inr (.inl rfl)
  · exact .inr (.inl rfl)
  · rcases hd with ⟨-, rfl⟩ | ⟨-, -, rfl⟩ | ⟨hv, i, -, rfl⟩
    · exact .inl rfl
    · exact .inl rfl
    · exact .inr (.inr ⟨hv, i, rfl⟩)

/-- The squash marker in FD puts no write in Execute (R87). -/
theorem step_de_wen_of_invalid (hv : s.fd.valid = false) (hw : s.de.wen = false) (h : step s = .next t) :
    t.de.wen = false := by
  rcases step_de_cases s t h with hde | hde | ⟨hv', -⟩
  · rw [hde]; rfl
  · rw [hde]; exact hw
  · simp [hv] at hv'

/-! ### Zeros -/

/-- From zeros no operation makes a nonzero value (R120). -/
@[simp] theorem alu_zero_zero (op : AluOp) : alu op 0x0000#16 0x0000#16 = 0x0000#16 := by
  cases op <;> rfl

/-- A write, if the entry does one, takes its operands from registers that held zero (R174). -/
def DeReg.zeroOperands (d : DeReg) : Prop :=
  d.wen = true → d.a = 0x0000#16 ∧ d.b = 0x0000#16

/-- Execute's write of an entry with zero operands leaves zero registers zero. -/
theorem archRf_read_eq_zero (hrf : ∀ r, s.rf.read r = 0x0000#16) (hde : s.de.zeroOperands) (r : RegIdx) :
    s.archRf.read r = 0x0000#16 := by
  by_cases hr : s.de.wen = true ∧ r = s.de.rd
  · obtain ⟨hw, rfl⟩ := hr
    obtain ⟨ha, hb⟩ := hde hw
    calc s.archRf.read s.de.rd
      _ = alu s.de.op s.de.a s.de.b := writeBack_read_same s.rf (execute s.de) hw
      _ = 0x0000#16 := by rw [ha, hb, alu_zero_zero]
  · exact (writeBack_read_other s.rf (execute s.de) r fun hw hrd => hr ⟨hw, hrd⟩).trans (hrf r)

/-- A register instruction's operands are registers as all older instructions leave them (R91), and a JUMP writes
nothing (R93). -/
theorem decodeEntry_zeroOperands (i : Instr) (h : ∀ r, s.archRf.read r = 0x0000#16) :
    (decodeEntry i s).zeroOperands := by
  obtain ⟨op, rd, rs1, rs2, rfl⟩ | ⟨k, rfl⟩ := i.eq_regOp_or_eq_jump
  · intro _
    simp [regOpEntry, operand_eq_archRf, h]
  · intro hw
    cases hw

end Sys2Proof.Machine

/-! ### The obligations on reset, the launch and empty or zero states -/

namespace Sys2Proof.Machine

/-- Settles O38, by the reset edge taken once and twice. -/
theorem resetEdgeState : Obligations.ResetEdgeState := fun s hr =>
  ⟨resetCycle s, step_of_rst s hr, rfl, rfl, rfl, rfl, rfl, rfl, rfl, fun hr' =>
    (step_of_rst _ hr').trans (congrArg _ (resetCycle_resetCycle s))⟩

/-- Settles O41: booting gives the reset state with the image loaded, which reads as its words. -/
theorem bootGivesTheLaunchState : Obligations.BootGivesTheLaunchState := fun cfg rfInit words h =>
  ⟨_, boot_of_le cfg rfInit words h, rfl, rfl, rfl, rfl, rfl, rfl, Memory.read_ofWords_zero words⟩

/-- Settles O44: the first cycle finds nothing to write in Execute and leaves nothing to write there for the second. -/
theorem firstTwoCyclesWriteNothing : Obligations.FirstTwoCyclesWriteNothing := by
  intro s t u hv hde hst htu
  have hs : s.de.wen = false := congrArg DeReg.wen hde
  have ht : t.de.wen = false := step_de_wen_of_invalid s t hv hs hst
  exact (step_rf_of_not_wen t u ht htu).trans (step_rf_of_not_wen s t hs hst)

/-- Settles O46: the registers stay zero even with Execute's write performed, and those are the registers a step leaves
and the operands it latches. -/
theorem zeroRegistersStayZero : Obligations.ZeroRegistersStayZero := by
  intro s t h hrf hde
  have harch := archRf_read_eq_zero s hrf hde
  constructor
  · rcases step_rf_cases s t h with ht | ht
    · rwa [ht]
    · rwa [ht]
  · rcases step_de_cases s t h with ht | ht | ⟨-, i, ht⟩
    · simp [ht, DeReg.bubble]
    · rwa [ht]
    · rw [ht]
      exact decodeEntry_zeroOperands s i harch

/-- Settles O47, by the parts of the invariant; that the parameters are legal and the memory canonical rests on the
reference configuration and the empty memory of `State.reset` (log entries 3 and 7). -/
theorem resetMeetsTheInvariant : Obligations.ResetMeetsTheInvariant :=
  (State.inv_iff State.reset).2
    ⟨by decide, rfl, rfl, State.fdLegal_of_nop State.reset _ rfl, DeReg.bubble_legal, rfl⟩

end Sys2Proof.Machine

/-! ### The obligation on the listed words -/

namespace Sys2Proof

/-- Settles O3: an assigned word is the encoding of the instruction listed with it, which decoding gives back, and the
other three have an unassigned opcode. -/
theorem specWordsDecodeAsListed : Obligations.SpecWordsDecodeAsListed :=
  ⟨decode_encode (.add 2#4 1#4 0#4), decode_encode (.sub 3#4 1#4 2#4), decode_encode (.xor 4#4 1#4 2#4),
    decode_encode (.and 5#4 1#4 2#4), decode_encode (.or 6#4 1#4 2#4), decode_encode (.jump 0x800#12),
    decode_of_div_unassigned _ (by decide), decode_of_div_unassigned _ (by decide),
    decode_of_div_unassigned _ (by decide)⟩

end Sys2Proof
